-- ==== Sys2Proof/Word.lean ====
section
/-! DEFINITION. The byte, the one word of this hardware: `00_scope.md` R7 and R11 (a byte is 8 bits, unsigned, bits numbered
7 down to 0). Every wider quantity of the spec (`n`, `cap`, `RET`, `missing`, the working indices) is an abstract unsigned
integer (`92_eei_decisions.md` D17; `44_cross_unit_laws.md` R203: "A model may use unbounded naturals throughout and loses
nothing") and is a `Nat` here. -/

namespace Sys2Proof

/-- One byte (R7): 8 bits, used as an unsigned value. -/
abbrev Byte := BitVec 8

end Sys2Proof
end

