-- ==== Sys2Proof/Config.lean ====
section
/-! DEFINITION. The constants the source fixes (`00_scope.md` R7, R8) and the two named parameters it leaves open (R9). -/

namespace Sys2Proof

/-- `DELIM` of R7: the delimiter byte, also the value of an implied zero. -/
def delim : Byte := 0x00#8

/-- `CODE_MIN` of R7: the least code of a block. -/
def codeMin : Byte := 0x01#8

/-- `CODE_FULL` of R7: the code of a full block. -/
def codeFull : Byte := 0xFF#8

/-- `MAX_DATA` of R7: the data bytes of a full block, and the capacity of `SE.buf` and of `SD.buf` (R8, R30, R34). -/
def maxData : Nat := 254

/-- The two parameters the source leaves open (R9, D2, D3): `SIZE_W`, the width in bits of `n`, `cap`, `RET` and the bulk
`missing`, and `ADDR_W`, the width of a base address. A machine carries its own values of them; no statement of this package
fixes them. -/
structure Params where
  /-- `SIZE_W` (R9). -/
  sizeW : Nat
  /-- `ADDR_W` (R9). -/
  addrW : Nat
  deriving DecidableEq, Repr

/-- DESIGN CHOICE (log entry 2): the widths that `State.reset` carries, since the spec gives none. -/
def resetParams : Params := { sizeW := 32, addrW := 32 }

end Sys2Proof
end

