-- ==== Sys2Proof/Syntax.lean ====
section
/-! DEFINITION. The instructions: one constructor of `Instr` per row of `spec/opcode_table.json`, and the plain data types of the
two encodings (`30_encoding.md`). -/

namespace Sys2Proof

/-- The four units (R1). -/
inductive CobsUnit where
  /-- The bulk encoder BE. -/
  | be
  /-- The bulk decoder BD. -/
  | bd
  /-- The streaming encoder SE. -/
  | se
  /-- The streaming decoder SD. -/
  | sd
  deriving DecidableEq, Repr

/-- A row of `spec/opcode_table.json` with its operands. The first ten are the commands of R92 (space "command"); the last four
are the byte classes of R82 and R88 (space "wire"). Lengths and bases are abstract unsigned integers (D17). -/
inductive Instr where
  /-- `BE.ENC_SINK src, n` (R113). -/
  | beEncSink (src n : Nat)
  /-- `BE.ENC_BUF src, n, dst, cap` (R114). -/
  | beEncBuf (src n dst cap : Nat)
  /-- `BD.DEC_SINK src, n` (R134). -/
  | bdDecSink (src n : Nat)
  /-- `BD.DEC_BUF src, n, dst, cap` (R135). -/
  | bdDecBuf (src n dst cap : Nat)
  /-- `SE.RESET` (R152). -/
  | seReset
  /-- `SE.SINK b` (R153). -/
  | seSink (b : Byte)
  /-- `SE.STOP` (R154). -/
  | seStop
  /-- `SD.RESET` (R174). -/
  | sdReset
  /-- `SD.SINK b` (R175). -/
  | sdSink (b : Byte)
  /-- `SD.STOP` (R176). -/
  | sdStop
  /-- `W.DELIM` (R82): the byte `0x00` at a code position. -/
  | wDelim
  /-- `W.FULL` (R82): the byte `0xFF` at a code position. -/
  | wFull
  /-- `W.RUN` (R82): a byte `0x01` to `0xFE` at a code position. -/
  | wRun (code : Byte)
  /-- `W.DATA` (R88): any byte at a data position. -/
  | wData (data : Byte)
  deriving DecidableEq, Repr

/-- The ten commands without their operands (R92). -/
inductive Command where
  | beEncSink | beEncBuf | bdDecSink | bdDecBuf | seReset | seSink | seStop | sdReset | sdSink | sdStop
  deriving DecidableEq, Repr

/-- The three command formats of R91; format `B` comes with two or with four named operands. -/
inductive Format where
  /-- `S0`: the opcode byte alone. -/
  | s0
  /-- `S1`: the opcode byte and one operand byte. -/
  | s1
  /-- `B` with the operands `src`, `n`. -/
  | bSink
  /-- `B` with the operands `src`, `n`, `dst`, `cap`. -/
  | bBuf
  deriving DecidableEq, Repr

/-- What a wire byte is read as (R88). -/
inductive Position where
  /-- A code position: the next byte is a code or the delimiter. -/
  | code
  /-- A data position: the next byte is one of the `code - 1` bytes after a code. -/
  | data
  deriving DecidableEq, Repr

/-- One item of the host's stream. R91 and R100 write a command as an opcode byte followed by its operands, an operand byte for
format `S1` and symbolic operands for format `B`; `wire` and `hostWrite` are the model's own items (log entries 4 and 5). -/
inductive Item where
  /-- A byte of the command space: an opcode byte, or the operand byte `b`. -/
  | byte (b : Byte)
  /-- A symbolic operand of a format `B` command: `src`, `n`, `dst` or `cap`. -/
  | value (v : Nat)
  /-- A byte of the wire space, handed to the streaming decoder. -/
  | wire (b : Byte)
  /-- The host stores a byte of its own memory (it owns `SRC` and `DST`: R36, R37, R62). -/
  | hostWrite (addr : Nat) (b : Byte)
  deriving DecidableEq, Repr

/-- One block of the wire format (R81): its code and its data bytes. -/
structure Block where
  /-- Byte 0 of the block. -/
  code : Byte
  /-- Bytes 1 to `code - 1` of the block. -/
  data : List Byte
  deriving DecidableEq, Repr

/-- The three classes of a byte at a code position (R82). -/
inductive WireClass where
  /-- `W.DELIM`. -/
  | delim
  /-- `W.RUN`. -/
  | run
  /-- `W.FULL`. -/
  | full
  deriving DecidableEq, Repr

end Sys2Proof
end

