-- ==== Sys2Proof/WellFormed.lean ====
section
/-! DEFINITION. What makes an instruction well formed: every operand has the width R94 gives it, and a `W.RUN` carries one of the
codes of its class (R82). -/

namespace Sys2Proof

/-- `v` is an unsigned integer of `SIZE_W` bits (R24, R94). -/
def Params.isSize (p : Params) (v : Nat) : Bool := decide (v < 2 ^ p.sizeW)

/-- `v` is a base address of `ADDR_W` bits (R94). -/
def Params.isBase (p : Params) (v : Nat) : Bool := decide (v < 2 ^ p.addrW)

/-- The instruction's operands are what R82 and R94 say they are. -/
def Instr.wf (p : Params) : Instr → Bool
  | .beEncSink src n => p.isBase src && p.isSize n
  | .beEncBuf src n dst cap => p.isBase src && p.isSize n && p.isBase dst && p.isSize cap
  | .bdDecSink src n => p.isBase src && p.isSize n
  | .bdDecBuf src n dst cap => p.isBase src && p.isSize n && p.isBase dst && p.isSize cap
  | .seReset => true
  | .seSink _ => true
  | .seStop => true
  | .sdReset => true
  | .sdSink _ => true
  | .sdStop => true
  | .wDelim => true
  | .wFull => true
  | .wRun code => code != delim && code != codeFull
  | .wData _ => true

/-- The position that selects a wire row (R88); a command is selected by its opcode byte in either position. -/
def Instr.readAt : Instr → Position → Bool
  | .wDelim, pos => pos == .code
  | .wFull, pos => pos == .code
  | .wRun _, pos => pos == .code
  | .wData _, pos => pos == .data
  | .beEncSink _ _, _ => true
  | .beEncBuf _ _ _ _, _ => true
  | .bdDecSink _ _, _ => true
  | .bdDecBuf _ _ _ _, _ => true
  | .seReset, _ => true
  | .seSink _, _ => true
  | .seStop, _ => true
  | .sdReset, _ => true
  | .sdSink _, _ => true
  | .sdStop, _ => true

end Sys2Proof
end

