-- ==== Sys2Proof/Decode.lean ====
section
/-! DEFINITION. The decoder of the two encoding spaces of `30_encoding.md`, total on any list of items, and after it the encoder.
The command space is read from the opcode byte (R91, R92); the wire space is read by position (R82, R88). The two spaces are
never decoded against each other: an item says which space it belongs to. -/

namespace Sys2Proof

/-- Why a list of items is not a command. -/
inductive DecodeError where
  /-- There is no item: the host has issued nothing. -/
  | noCommand
  /-- R93: the opcode byte is none of the ten. -/
  | unassignedOpcode (op : Byte)
  /-- An item that is no opcode byte stands where a command begins. -/
  | notAnOpcode
  /-- R94 ("No operand is optional and none has a default"): the operands the command's format names do not follow. -/
  | operandsMissing (c : Command)
  /-- R94: an operand is no base of `ADDR_W` bits or no size of `SIZE_W` bits. -/
  | operandTooWide (c : Command)
  deriving DecidableEq, Repr

/-- `op[7:4]` of R91: the unit. -/
def opUnit (op : Byte) : Nat := (op.extractLsb' 4 4).toNat

/-- `op[3:0]` of R91: the operation of that unit. -/
def opOperation (op : Byte) : Nat := (op.extractLsb' 0 4).toNat

/-- The command an opcode byte selects, by the two fields of R91 and the list of R92; none for the 246 others (R93). -/
def commandOf (op : Byte) : Option Command :=
  match opUnit op, opOperation op with
  | 0, 0 => some .beEncSink
  | 0, 1 => some .beEncBuf
  | 1, 0 => some .bdDecSink
  | 1, 1 => some .bdDecBuf
  | 2, 0 => some .seReset
  | 2, 1 => some .seSink
  | 2, 2 => some .seStop
  | 3, 0 => some .sdReset
  | 3, 1 => some .sdSink
  | 3, 2 => some .sdStop
  | _, _ => none

/-- The format column of R92. -/
def Command.format : Command → Format
  | .beEncSink => .bSink
  | .beEncBuf => .bBuf
  | .bdDecSink => .bSink
  | .bdDecBuf => .bBuf
  | .seReset => .s0
  | .seSink => .s1
  | .seStop => .s0
  | .sdReset => .s0
  | .sdSink => .s1
  | .sdStop => .s0

/-- The class of a byte at a code position (R82): the two fixed patterns first. -/
def classify (b : Byte) : WireClass :=
  if b = delim then .delim else if b = codeFull then .full else .run

/-- The row of the wire space a byte is read as at a position (R82, R88). -/
def decodeWire (pos : Position) (b : Byte) : Instr :=
  match pos with
  | .data => .wData b
  | .code =>
    match classify b with
    | .delim => .wDelim
    | .full => .wFull
    | .run => .wRun b

/-- The two operands `src`, `n` of a format `B` command in sink mode, if they have their widths. -/
def sinkOperands (p : Params) (c : Command) (mk : Nat → Nat → Instr) :
    List Item → Except DecodeError (Instr × List Item)
  | .value src :: .value n :: rest =>
    if p.isBase src && p.isSize n then .ok (mk src n, rest) else .error (.operandTooWide c)
  | _ => .error (.operandsMissing c)

/-- The four operands `src`, `n`, `dst`, `cap` of a format `B` command in bounded-buffer mode, if they have their widths. -/
def bufOperands (p : Params) (c : Command) (mk : Nat → Nat → Nat → Nat → Instr) :
    List Item → Except DecodeError (Instr × List Item)
  | .value src :: .value n :: .value dst :: .value cap :: rest =>
    if p.isBase src && p.isSize n && p.isBase dst && p.isSize cap then .ok (mk src n dst cap, rest)
    else .error (.operandTooWide c)
  | _ => .error (.operandsMissing c)

/-- The operand byte `b` of a format `S1` command (R94: the 8 bits, unsigned, used as is). -/
def byteOperand (c : Command) (mk : Byte → Instr) : List Item → Except DecodeError (Instr × List Item)
  | .byte b :: rest => .ok (mk b, rest)
  | _ => .error (.operandsMissing c)

/-- The operands of a command, in the order of R92. -/
def decodeOperands (p : Params) (c : Command) (items : List Item) : Except DecodeError (Instr × List Item) :=
  match c with
  | .beEncSink => sinkOperands p .beEncSink .beEncSink items
  | .beEncBuf => bufOperands p .beEncBuf .beEncBuf items
  | .bdDecSink => sinkOperands p .bdDecSink .bdDecSink items
  | .bdDecBuf => bufOperands p .bdDecBuf .bdDecBuf items
  | .seReset => .ok (.seReset, items)
  | .seSink => byteOperand .seSink .seSink items
  | .seStop => .ok (.seStop, items)
  | .sdReset => .ok (.sdReset, items)
  | .sdSink => byteOperand .sdSink .sdSink items
  | .sdStop => .ok (.sdStop, items)

/-- The instruction at the head of the host's stream and the rest of the stream, with the wire space read at `pos`. -/
def decode (p : Params) (pos : Position) : List Item → Except DecodeError (Instr × List Item)
  | [] => .error .noCommand
  | .wire b :: rest => .ok (decodeWire pos b, rest)
  | .byte op :: rest =>
    match commandOf op with
    | some c => decodeOperands p c rest
    | none => .error (.unassignedOpcode op)
  | .value _ :: _ => .error .notAnOpcode
  | .hostWrite _ _ :: _ => .error .notAnOpcode

/-- The opcode byte of a command, column "opcode" of R92. -/
def Command.opcode : Command → Byte
  | .beEncSink => 0x00#8
  | .beEncBuf => 0x01#8
  | .bdDecSink => 0x10#8
  | .bdDecBuf => 0x11#8
  | .seReset => 0x20#8
  | .seSink => 0x21#8
  | .seStop => 0x22#8
  | .sdReset => 0x30#8
  | .sdSink => 0x31#8
  | .sdStop => 0x32#8

/-- The items of an instruction: R91 and R92 for a command, one byte for a row of the wire space (R82, R88). -/
def encode : Instr → List Item
  | .beEncSink src n => [.byte Command.beEncSink.opcode, .value src, .value n]
  | .beEncBuf src n dst cap => [.byte Command.beEncBuf.opcode, .value src, .value n, .value dst, .value cap]
  | .bdDecSink src n => [.byte Command.bdDecSink.opcode, .value src, .value n]
  | .bdDecBuf src n dst cap => [.byte Command.bdDecBuf.opcode, .value src, .value n, .value dst, .value cap]
  | .seReset => [.byte Command.seReset.opcode]
  | .seSink b => [.byte Command.seSink.opcode, .byte b]
  | .seStop => [.byte Command.seStop.opcode]
  | .sdReset => [.byte Command.sdReset.opcode]
  | .sdSink b => [.byte Command.sdSink.opcode, .byte b]
  | .sdStop => [.byte Command.sdStop.opcode]
  | .wDelim => [.wire delim]
  | .wFull => [.wire codeFull]
  | .wRun code => [.wire code]
  | .wData data => [.wire data]

/-- How many items an instruction of this format has: the opcode byte and the operands of R91. -/
def Format.items : Format → Nat
  | .s0 => 1
  | .s1 => 2
  | .bSink => 3
  | .bBuf => 5

/-- The operand items of a command whose table word has the bits `above` over its opcode byte. Only format `S1` gives an operand
bits; the symbolic operands of format `B` have none and are 0. -/
def tableOperands (f : Format) (above : Nat) : List Item :=
  match f with
  | .s0 => []
  | .s1 => [.byte (BitVec.ofNat 8 above)]
  | .bSink => [.value 0, .value 0]
  | .bBuf => [.value 0, .value 0, .value 0, .value 0]

/-- The items of a table word (log entry 6): its first byte is an opcode byte where the command space assigns one, and a byte of
the wire space where it does not. -/
def tableItems (nbits w : Nat) : List Item :=
  let v := w % 2 ^ nbits
  let first := BitVec.ofNat 8 v
  match commandOf first with
  | some c => .byte first :: tableOperands c.format (v / 256)
  | none => [.wire first]

/-- The instruction the decoder reads from a table word; a byte of the wire space is read at a code position. -/
def decodeTableWord (nbits w : Nat) : Option Instr :=
  match decode resetParams .code (tableItems nbits w) with
  | .ok (i, _) => some i
  | .error _ => none

end Sys2Proof
end

