-- ==== Sys2Proof/Machine/State.lean ====
section
/-! DEFINITION. The state of the machine as plain data (`10_state.md`), the emission record (`30_encoding.md` R96 to R98), the
working quantities of one bulk command (R25, R27), the reasons a step can stop, and the state after reset (R43). -/

namespace Sys2Proof.Machine

/-- The host's byte-addressed memory, in which `SRC` and `DST` lie (R36, R37): addresses strictly rising, and no entry equal to
what an unlisted address reads as (`Memory.wf`). -/
abbrev Memory := List Host.Cell

/-- One emission, recorded by value (R61, D8), with the unit that made it. -/
inductive Emission where
  /-- The encode-side record of R96, made by BE or SE. -/
  | encode (unit : CobsUnit) (bytes : List Byte)
  /-- The decode-side record of R97, made by BD or SD: the bytes, the missing count and the null bit. -/
  | decode (unit : CobsUnit) (bytes : List Byte) (missing : Nat) (null : Bool)
  deriving DecidableEq, Repr

/-- The working quantities of one BE command (R25), and the blocks flushed so far, in order. They are initialised at the start
of every BE command and discarded at its end (R20, R120), so they are no part of `State`. -/
structure BeWork where
  /-- `BE.code`: one more than the number of data bytes of the pending block. -/
  code : Nat
  /-- `BE.start`: the offset into `SRC` of the pending block's first data byte. -/
  start : Nat
  /-- `BE.i`: the scan position. -/
  i : Nat
  /-- `BE.total`: the output bytes produced so far, stored or not. -/
  total : Nat
  /-- The flushed blocks (R112). -/
  flushed : List Block
  deriving DecidableEq, Repr

/-- What the parse of R131 produces: an implied zero, or a span of data bytes. -/
inductive BdOut where
  /-- `out_zero()` of R131. -/
  | zero
  /-- `out_span(a, k)` of R131, with the bytes `SRC[a .. a+k)`. -/
  | span (bytes : List Byte)
  deriving DecidableEq, Repr

/-- The working quantities of one BD command (R27), and what it has produced so far, in order; no part of `State` (R20, R144). -/
structure BdWork where
  /-- `BD.i`: the read position. -/
  i : Nat
  /-- `BD.total`: the decoded bytes produced so far, stored or not. -/
  total : Nat
  /-- `BD.prev_full`: no implied zero before the next block (R28). -/
  prevFull : Bool
  /-- What `out_zero` and `out_span` were called with. -/
  out : List BdOut
  deriving DecidableEq, Repr

/-- The three endings of a parse (R133). -/
inductive BdEnd where
  /-- (a) the delimiter was read at a code position. -/
  | delimiter
  /-- (b) the input was used up at a code position. -/
  | exhausted
  /-- (c) a block lacks `missing` data bytes: the condition E_TRUNC (R210, R211). -/
  | truncated (missing : Nat)
  deriving DecidableEq, Repr

/-- The machine between two commands. -/
structure State where
  /-- `SIZE_W` and `ADDR_W` of this machine (R9). -/
  params : Params
  /-- `SE.cnt` (R29): the pending data bytes, 0 to 254. -/
  seCnt : Nat
  /-- `SE.buf` (R30): 254 bytes. -/
  seBuf : Vector Byte 254
  /-- `SD.code` (R32): the code of the block being received; 0 awaits a code. -/
  sdCode : Byte
  /-- `SD.size` (R33): the data bytes received of that block, 0 to 254. -/
  sdSize : Nat
  /-- `SD.buf` (R34): 254 bytes. -/
  sdBuf : Vector Byte 254
  /-- `RET` (R24): the result of the last bulk command; R43 gives it no value until one has ended. -/
  ret : Option Nat
  /-- The host's memory, holding `SRC` and `DST` (R36, R37). -/
  mem : Memory
  /-- The sink's record (R15, R41): every emission made so far, oldest first. -/
  sink : List Emission
  /-- The host's stream of commands not yet performed (R41, R90), first one first. -/
  pending : List Item
  deriving DecidableEq, Repr

/-- The machine has no fault: the hardware "has no fault mechanism" (`93_implementation_defined.md`; `60_exceptions.md` R221),
and its one error condition is reported as data (R210 to R216). Nothing raises one. -/
inductive Fault where
  deriving DecidableEq, Repr

/-- Why a step is refused: the situations the spec gives no meaning (`92_eei_decisions.md` D14). A refusal changes nothing and is
safe: the machine stops where the spec says that a model must prove nothing. -/
inductive Refusal where
  /-- Raised by `exec` for an instruction that has no meaning yet. Safe. -/
  | notModelled (mnemonic : String)
  /-- Raised by `step` when the host's stream does not begin with a command: R93, U12. Safe. -/
  | undecodable (e : DecodeError)
  /-- Raised by a bulk command whose `n`, `cap` or size bound is no `SIZE_W`-bit number: R9, R204, U11. Safe. -/
  | sizeOverflow
  /-- Raised by a bounded-buffer command whose `SRC` and `DST` share a byte: R60, U10. Safe. -/
  | srcDstOverlap
  /-- Raised by a wire row at a position that does not select it: R88. The decoder never reads one there. Safe. -/
  | wirePosition
  deriving DecidableEq, Repr

/-- The state after power-on (R43, R240). `SE.buf` and `SD.buf` are unspecified there and hold zeros by DESIGN CHOICE (log
entry 3); the widths are log entry 2. -/
def State.reset : State where
  params := resetParams
  seCnt := 0
  seBuf := Vector.replicate 254 0x00#8
  sdCode := 0x00#8
  sdSize := 0
  sdBuf := Vector.replicate 254 0x00#8
  ret := none
  mem := []
  sink := []
  pending := []

end Sys2Proof.Machine
end

