-- ==== Sys2Proof/Machine/Ops.lean ====
section
/-! DEFINITION. The named operations every meaning is written over: host memory (`20_memory.md`), the registers, the sink's
record, the fetch of the next command, and the reporting of the one error condition (`60_exceptions.md` R210 to R215). -/

namespace Sys2Proof.Machine

/-! ### Host memory -/

/-- What a byte that nothing has written reads as. DESIGN CHOICE (log entry 1): the spec gives no contents. -/
def Memory.absent : Byte := 0x00#8

/-- The byte at an address. Every access succeeds (R58). -/
def Memory.read (m : Memory) (a : Nat) : Byte :=
  match m with
  | [] => Memory.absent
  | (k, v) :: rest => if k = a then v else Memory.read rest a

/-- `rest` with the cell `(a, b)` before it, unless an unlisted address reads as `b` anyway. -/
def Memory.cell (a : Nat) (b : Byte) (rest : Memory) : Memory :=
  if b = Memory.absent then rest else (a, b) :: rest

/-- Store one byte, changing no other (R53). -/
def Memory.write (m : Memory) (a : Nat) (b : Byte) : Memory :=
  match m with
  | [] => Memory.cell a b []
  | (k, v) :: rest =>
    if a < k then Memory.cell a b ((k, v) :: rest)
    else if a = k then Memory.cell a b rest
    else (k, v) :: Memory.write rest a b

/-- Every address listed is at least `lo`, they rise strictly, and no listed byte is the one an unlisted address reads as. -/
def Memory.wfFrom (lo : Nat) : Memory → Bool
  | [] => true
  | (k, v) :: rest => decide (lo ≤ k) && v != Memory.absent && Memory.wfFrom (k + 1) rest

/-- The canonical form. -/
def Memory.wf (m : Memory) : Bool := Memory.wfFrom 0 m

/-- The bytes at the offsets `0 .. n-1` of the space with base `a` (R12, R14, R59), lowest offset first. -/
def Memory.span (m : Memory) (a : Nat) : Nat → List Byte
  | 0 => []
  | n + 1 => m.read a :: Memory.span m (a + 1) n

/-- The per-byte output of R55, R114 and R135, from the output position `total` on: byte `k` of the output goes to offset `k` of
`DST` when `k < cap` and nowhere otherwise. -/
def Memory.outBytes (m : Memory) (dst cap total : Nat) : List Byte → Memory
  | [] => m
  | v :: vs => Memory.outBytes (if total < cap then m.write (dst + total) v else m) dst cap (total + 1) vs

/-! ### Registers and the sink -/

/-- Append emissions to the sink's record (R15). -/
def State.emit (s : State) (es : List Emission) : State := { s with sink := s.sink ++ es }

/-- `RET <- v` (R15). -/
def State.setRet (s : State) (v : Nat) : State := { s with ret := some v }

/-- The host's memory is now `m`. -/
def State.setMem (s : State) (m : Memory) : State := { s with mem := m }

/-- `SE.cnt <- c`. -/
def State.setSeCnt (s : State) (c : Nat) : State := { s with seCnt := c }

/-- `MemWrite(SE.buf, i, 1, b)` (R38); the buffer has the offsets 0 to 253 only. -/
def State.setSeByte (s : State) (i : Nat) (b : Byte) : State := { s with seBuf := s.seBuf.setIfInBounds i b }

/-- `SD.code <- c`. -/
def State.setSdCode (s : State) (c : Byte) : State := { s with sdCode := c }

/-- `SD.size <- n`. -/
def State.setSdSize (s : State) (n : Nat) : State := { s with sdSize := n }

/-- `MemWrite(SD.buf, i, 1, b)` (R39); the buffer has the offsets 0 to 253 only. -/
def State.setSdByte (s : State) (i : Nat) (b : Byte) : State := { s with sdBuf := s.sdBuf.setIfInBounds i b }

/-- The host's stream is now `items`. -/
def State.setPending (s : State) (items : List Item) : State := { s with pending := items }

/-- `SE.buf[0 .. SE.cnt)` (R30). -/
def State.seData (s : State) : List Byte := s.seBuf.toList.take s.seCnt

/-- `SD.buf[0 .. SD.size)` (R34). -/
def State.sdData (s : State) : List Byte := s.sdBuf.toList.take s.sdSize

/-- The code of SE's pending block, `SE.cnt + 1` (R29). -/
def State.seCode (s : State) : Byte := BitVec.ofNat 8 (s.seCnt + 1)

/-! ### The host -/

/-- The position at which SD reads its next byte (R88): a code position when it awaits a code or its block is complete, as the
second test of R175 says. -/
def State.position (s : State) : Position :=
  if s.sdCode = 0x00#8 ∨ s.sdSize = s.sdCode.toNat - 1 then .code else .data

/-- The next command of the host's stream and the stream after it. -/
def State.fetch (s : State) : Except DecodeError (Instr × List Item) := decode s.params s.position s.pending

/-- The host stores a byte of its own memory between two commands (R62, R66 (b)). -/
def State.hostStore (s : State) (a : Nat) (b : Byte) : State := s.setMem (s.mem.write a b)

/-- What placing a table word for the next fetch changes beside the stream: a byte of the wire space is to be read at a code
position, so SD awaits a code unless it is at one (log entry 6). -/
def State.readyFor (s : State) (items : List Item) : State :=
  match items, s.position with
  | .wire _ :: _, .data => (s.setSdCode 0x00#8).setSdSize 0
  | _, _ => s

/-! ### The error condition -/

/-- `report E_TRUNC(m)` of `BD.DEC_SINK` (R136, R212): one last emission, null pointer, length 0, missing `m`. -/
def truncReport (m : Nat) : Emission := .decode .bd [] m true

end Sys2Proof.Machine
end

