-- ==== Sys2Proof/Machine/Flags.lean ====
section
/-! DEFINITION. The hardware's one flag, `BD.prev_full` (R28, R44), the test SD makes in its place, the missing counts of the
error condition (R173, R211), and SD's three logical states (R35, R171). -/

namespace Sys2Proof.Machine

/-- `BD.prev_full` at the start of a BD command (R28, R43). -/
def prevFullInit : Bool := true

/-- `BD.prev_full` after a block with this code (R28, R131). -/
def prevFullAfter (code : Byte) : Bool := code == codeFull

/-- SD appends an implied zero after a completed block with this code (R44, R175). -/
def sdAppendsZero (code : Byte) : Bool := code != codeFull

/-- `need = code - 1` (R83): the data bytes a code declares. -/
def need (code : Byte) : Nat := code.toNat - 1

/-- `need - avail` (R131, R211). -/
def bdMissing (need avail : Nat) : Nat := need - avail

/-- `code ? code-size-1 : 0`, the literal formula of R173. -/
def sdLeft (code : Byte) (size : Nat) : Nat :=
  if code ≠ 0x00#8 then code.toNat - size - 1 else 0

/-- AwaitingCode (R35, R171). -/
def State.awaitingCode (s : State) : Bool := s.sdCode == 0x00#8

/-- ReceivingBlock (R35, R171). -/
def State.receivingBlock (s : State) : Bool := s.sdCode != 0x00#8 && decide (s.sdSize < s.sdCode.toNat - 1)

/-- BlockComplete (R35, R171). -/
def State.blockComplete (s : State) : Bool := s.sdCode != 0x00#8 && decide (s.sdSize = s.sdCode.toNat - 1)

end Sys2Proof.Machine
end

