-- ==== Sys2Proof/Machine/Operands.lean ====
section
/-! DEFINITION. The operands of the bulk commands: the one addressing form base plus offset (R59), the sizes a command is
admitted with (R9, R204), and the disjointness of `SRC` and `DST` (R60). -/

namespace Sys2Proof.Machine

/-- The contents of `SRC` (R36): `n` bytes at the base `src`. -/
def State.source (s : State) (src n : Nat) : List Byte := s.mem.span src n

/-- The largest value a size can take in a BE command (R204): the bound of R118 on the encoding of `n` bytes. -/
def beBound (n : Nat) : Nat := n + 1 + (n - 1) / maxData

/-- The largest value a size can take in a BD command (R204). -/
def bdBound (n : Nat) : Nat := n

/-- `SRC[0..n)` and `DST[0..cap)` share a byte (R60). -/
def regionsShareByte (src n dst cap : Nat) : Bool :=
  decide (0 < n) && decide (0 < cap) && decide (src < dst + cap) && decide (dst < src + n)

/-- Why a sink-mode bulk command is refused, if it is (R9, R204). -/
def sinkRefusal (p : Params) (n bound : Nat) : Option Refusal :=
  if p.isSize n && p.isSize bound then none else some .sizeOverflow

/-- Why a bounded-buffer command is refused, if it is (R9, R60, R204). -/
def bufRefusal (p : Params) (src n dst cap bound : Nat) : Option Refusal :=
  if p.isSize n && p.isSize cap && p.isSize bound then
    if regionsShareByte src n dst cap then some .srcDstOverlap else none
  else some .sizeOverflow

/-- A sink-mode bulk command (R113, R134): its emissions and its `RET`, unless it is refused. -/
def sinkCommand (refusal : Option Refusal) (es : List Emission) (ret : Nat) (s : State) :
    Host.Outcome State Fault Refusal :=
  match refusal with
  | some r => .refused r
  | none => .next ((s.emit es).setRet ret)

/-- A bounded-buffer bulk command (R55, R114, R135): its output into `DST`, cut at `cap`, and its `RET`, unless it is refused. -/
def bufCommand (refusal : Option Refusal) (dst cap : Nat) (output : List Byte) (ret : Nat) (s : State) :
    Host.Outcome State Fault Refusal :=
  match refusal with
  | some r => .refused r
  | none => .next ((s.setMem (s.mem.outBytes dst cap 0 output)).setRet ret)

end Sys2Proof.Machine
end

