-- ==== Sys2Proof/Machine/BulkEncoder.lean ====
section
/-! DEFINITION. The bulk encoder BE (`40_bulk_encoder.md`): the scan of R111 over the working quantities of R25, and its two
commands. -/

namespace Sys2Proof.Machine

/-- The working quantities at the start of a BE command (R43, R111). -/
def beInit : BeWork := { code := 1, start := 0, i := 0, total := 0, flushed := [] }

/-- The bytes `SRC[a .. a+k)` of a payload. -/
def slice (payload : List Byte) (a k : Nat) : List Byte := (payload.drop a).take k

/-- `flush()` (R112): output the code, then the `code - 1` data bytes from `start`; `total` grows by `code`. -/
def beFlush (payload : List Byte) (w : BeWork) : BeWork :=
  { w with
    total := w.total + w.code
    flushed := w.flushed ++ [{ code := BitVec.ofNat 8 w.code, data := slice payload w.start (w.code - 1) }] }

/-- The first test of the scan (R111): a full pending block is flushed before the byte at `i` is processed. -/
def beFlushFull (payload : List Byte) (w : BeWork) : BeWork :=
  if w.code = codeFull.toNat then { beFlush payload w with code := 1, start := w.i } else w

/-- The second test of the scan (R111): a zero flushes the pending block and is skipped, any other byte joins it. -/
def beTake (payload : List Byte) (w : BeWork) (v : Byte) : BeWork :=
  if v = delim then { beFlush payload w with code := 1, start := w.i + 1 } else { w with code := w.code + 1 }

/-- One turn of the scan's loop, on the byte `v` at `i`. -/
def beByte (payload : List Byte) (w : BeWork) (v : Byte) : BeWork :=
  let w' := beTake payload (beFlushFull payload w) v
  { w' with i := w'.i + 1 }

/-- The whole scan (R111) with the final, unconditional flush (R115). -/
def beScan (payload : List Byte) : BeWork :=
  beFlush payload (payload.foldl (beByte payload) beInit)

/-- The bytes of a block, the code first (R81). -/
def blockBytes (b : Block) : List Byte := b.code :: b.data

/-- The bytes a BE command outputs (R110): the flushed blocks in order. -/
def beOutput (w : BeWork) : List Byte := w.flushed.flatMap blockBytes

/-- The two emissions of one flush in sink mode (R113), the second one also when the span is empty. -/
def beEmissions (b : Block) : List Emission := [.encode .be [b.code], .encode .be b.data]

/-- `BE.ENC_SINK src, n` (R113). -/
def execBeEncSink (src n : Nat) (s : State) : Host.Outcome State Fault Refusal :=
  let w := beScan (s.source src n)
  sinkCommand (sinkRefusal s.params n (beBound n)) (w.flushed.flatMap beEmissions) w.total s

/-- `BE.ENC_BUF src, n, dst, cap` (R114). -/
def execBeEncBuf (src n dst cap : Nat) (s : State) : Host.Outcome State Fault Refusal :=
  let w := beScan (s.source src n)
  bufCommand (bufRefusal s.params src n dst cap (beBound n)) dst cap (beOutput w) w.total s

end Sys2Proof.Machine
end

