-- ==== Sys2Proof/Machine/BulkDecoder.lean ====
section
/-! DEFINITION. The bulk decoder BD (`41_bulk_decoder.md`): the parse of R131 over the working quantities of R27, and its two
commands. -/

namespace Sys2Proof.Machine

/-- The working quantities at the start of a BD command (R43, R131). -/
def bdInit : BdWork := { i := 0, total := 0, prevFull := prevFullInit, out := [] }

/-- `out_zero()` when the flag calls for the implied zero (R131, R132). -/
def bdImpliedZero (w : BdWork) : BdWork :=
  if w.prevFull then w else { w with total := w.total + 1, out := w.out ++ [.zero] }

/-- `out_span(BD.i, need)`, the step past it and the flag (R131), for a complete block whose code `c` has just been read. -/
def bdBlock (frame : List Byte) (c : Byte) (w : BdWork) : BdWork :=
  let z := bdImpliedZero w
  { z with
    i := z.i + need c
    total := z.total + need c
    prevFull := prevFullAfter c
    out := z.out ++ [.span (slice frame z.i (need c))] }

/-- The loop of the parse (R131), at most `fuel` turns of it, and its ending (R133). A turn reads at least one byte, so
`frame.length + 1` turns always reach an ending of R133. -/
def bdLoop (frame : List Byte) : Nat → BdWork → BdWork × BdEnd
  | 0, w => (w, .exhausted)
  | fuel + 1, w =>
    if w.i < frame.length then
      let c := frame.getD w.i delim
      let w' := { w with i := w.i + 1 }
      match classify c with
      | .delim => (w', .delimiter)
      | .run | .full =>
        let avail := frame.length - w'.i
        if avail < need c then (w', .truncated (bdMissing (need c) avail))
        else bdLoop frame fuel (bdBlock frame c w')
    else (w, .exhausted)

/-- The whole parse (R131). -/
def bdParse (frame : List Byte) : BdWork × BdEnd := bdLoop frame (frame.length + 1) bdInit

/-- The decoded bytes of one output of the parse. -/
def bdOutBytes : BdOut → List Byte
  | .zero => [delim]
  | .span bytes => bytes

/-- The emissions of one output in sink mode (R134, R141): none for an empty span. -/
def bdOutEmissions : BdOut → List Emission
  | .zero => [.decode .bd [delim] 0 false]
  | .span [] => []
  | .span (b :: bytes) => [.decode .bd (b :: bytes) 0 false]

/-- The decoded bytes of a parse, in order (R130). -/
def bdOutput (w : BdWork) : List Byte := w.out.flatMap bdOutBytes

/-- The emission that reports the condition at the end of a parse in sink mode (R134, R136, R212). -/
def bdEndEmissions : BdEnd → List Emission
  | .delimiter => []
  | .exhausted => []
  | .truncated m => [truncReport m]

/-- `RET` of a BD command (R131, R133, R137): the decoded length, or 0 for a malformed frame. -/
def bdRet (w : BdWork) : BdEnd → Nat
  | .delimiter => w.total
  | .exhausted => w.total
  | .truncated _ => 0

/-- `BD.DEC_SINK src, n` (R134). The refusal looks at `n` alone. DESIGN CHOICE (log entry 20): R9 gives the missing count the width
`SIZE_W`, and where that is below 8 bits a count that does not fit is neither refused nor cut but emitted whole. -/
def execBdDecSink (src n : Nat) (s : State) : Host.Outcome State Fault Refusal :=
  let r := bdParse (s.source src n)
  sinkCommand (sinkRefusal s.params n (bdBound n)) (r.1.out.flatMap bdOutEmissions ++ bdEndEmissions r.2) (bdRet r.1 r.2) s

/-- `BD.DEC_BUF src, n, dst, cap` (R135): the missing count is not reported in this mode (R137). -/
def execBdDecBuf (src n dst cap : Nat) (s : State) : Host.Outcome State Fault Refusal :=
  let r := bdParse (s.source src n)
  bufCommand (bufRefusal s.params src n dst cap (bdBound n)) dst cap (bdOutput r.1) (bdRet r.1 r.2) s

end Sys2Proof.Machine
end

