-- ==== Sys2Proof/Machine/StreamEncoder.lean ====
section
/-! DEFINITION. The streaming encoder SE (`42_stream_encoder.md`): the flush action and its three commands. -/

namespace Sys2Proof.Machine

/-- `se_flush()` (R151): one emission with the code and the pending data, and no pending byte any more. -/
def seFlush (s : State) : State := (s.emit [.encode .se (s.seCode :: s.seData)]).setSeCnt 0

/-- The first test of R153: a full pending block is flushed first. -/
def seFlushFull (s : State) : State := if s.seCnt = maxData then seFlush s else s

/-- The second test of R153: a zero flushes, any other byte joins the pending block. -/
def seTake (b : Byte) (s : State) : State :=
  if b = delim then seFlush s else (s.setSeByte s.seCnt b).setSeCnt (s.seCnt + 1)

/-- `SE.RESET` (R152). -/
def execSeReset (s : State) : Host.Outcome State Fault Refusal := .next (s.setSeCnt 0)

/-- `SE.SINK b` (R153). -/
def execSeSink (b : Byte) (s : State) : Host.Outcome State Fault Refusal := .next (seTake b (seFlushFull s))

/-- `SE.STOP` (R154): the pending block and the delimiter as one emission. -/
def execSeStop (s : State) : Host.Outcome State Fault Refusal :=
  .next ((s.emit [.encode .se (s.seCode :: s.seData ++ [delim])]).setSeCnt 0)

end Sys2Proof.Machine
end

