-- ==== Sys2Proof/Machine/StreamDecoder.lean ====
section
/-! DEFINITION. The streaming decoder SD (`43_stream_decoder.md`): the finalize action, its three commands, and the four rows of
the wire space (`30_encoding.md` R82, R88) as the effect of one such byte on SD. -/

namespace Sys2Proof.Machine

/-- `sd_finalize()` (R173): one emission, always, with the buffered bytes and the missing count; SD awaits a code. -/
def sdFinalize (s : State) : State :=
  ((s.emit [.decode .sd s.sdData (sdLeft s.sdCode s.sdSize) false]).setSdCode 0x00#8).setSdSize 0

/-- The implied zero joins a completed block whose code calls for it (R175). -/
def sdImpliedZero (s : State) : State :=
  if sdAppendsZero s.sdCode then (s.setSdByte s.sdSize delim).setSdSize (s.sdSize + 1) else s

/-- A completed block is emitted with its implied zero, if any (R175); with no prior block nothing is emitted. -/
def sdRelease (s : State) : State :=
  if s.sdCode ≠ 0x00#8 then
    let z := sdImpliedZero s
    z.emit [.decode .sd z.sdData 0 false]
  else s

/-- A code byte at a code position (R175): the completed block is released and the new code recorded. -/
def sdTakeCode (c : Byte) (s : State) : State := ((sdRelease s).setSdSize 0).setSdCode c

/-- A data byte at a data position (R175). -/
def sdTakeData (b : Byte) (s : State) : State := (s.setSdByte s.sdSize b).setSdSize (s.sdSize + 1)

/-- `SD.RESET` (R174). -/
def execSdReset (s : State) : Host.Outcome State Fault Refusal := .next ((s.setSdCode 0x00#8).setSdSize 0)

/-- `SD.SINK b` (R175): the zero test first, then the test for a code position. -/
def execSdSink (b : Byte) (s : State) : Host.Outcome State Fault Refusal :=
  if b = delim then .next (sdFinalize s)
  else if s.sdCode = 0x00#8 ∨ s.sdSize = s.sdCode.toNat - 1 then .next (sdTakeCode b s)
  else .next (sdTakeData b s)

/-- `SD.STOP` (R176). -/
def execSdStop (s : State) : Host.Outcome State Fault Refusal := .next (sdFinalize s)

/-- A wire row takes effect only at the position that selects it (R88). -/
def atPosition (pos : Position) (effect s : State) : Host.Outcome State Fault Refusal :=
  if s.position = pos then .next effect else .refused .wirePosition

/-- `W.DELIM` (R82): the frame ends here. -/
def execWDelim (s : State) : Host.Outcome State Fault Refusal := atPosition .code (sdFinalize s) s

/-- `W.FULL` (R82): the code of a full block. -/
def execWFull (s : State) : Host.Outcome State Fault Refusal := atPosition .code (sdTakeCode codeFull s) s

/-- `W.RUN` (R82): the code of a block with `code - 1` data bytes. -/
def execWRun (code : Byte) (s : State) : Host.Outcome State Fault Refusal := atPosition .code (sdTakeCode code s) s

/-- `W.DATA` (R88): a data byte; a zero there ends the frame with the block incomplete (R87, R175). -/
def execWData (data : Byte) (s : State) : Host.Outcome State Fault Refusal :=
  atPosition .data (if data = delim then sdFinalize s else sdTakeData data s) s

end Sys2Proof.Machine
end

