-- ==== Sys2Proof/Machine/Dispatch.lean ====
section
/-! DEFINITION. One arm per row of `spec/opcode_table.json`. -/

namespace Sys2Proof.Machine

def exec (i : Instr) (s : State) : Host.Outcome State Fault Refusal :=
  match i with
  | .beEncSink src n => Sys2Proof.Machine.execBeEncSink src n s
  | .beEncBuf src n dst cap => Sys2Proof.Machine.execBeEncBuf src n dst cap s
  | .bdDecSink src n => Sys2Proof.Machine.execBdDecSink src n s
  | .bdDecBuf src n dst cap => Sys2Proof.Machine.execBdDecBuf src n dst cap s
  | .seReset => Sys2Proof.Machine.execSeReset s
  | .seSink b => Sys2Proof.Machine.execSeSink b s
  | .seStop => Sys2Proof.Machine.execSeStop s
  | .sdReset => Sys2Proof.Machine.execSdReset s
  | .sdSink b => Sys2Proof.Machine.execSdSink b s
  | .sdStop => Sys2Proof.Machine.execSdStop s
  | .wDelim => Sys2Proof.Machine.execWDelim s
  | .wFull => Sys2Proof.Machine.execWFull s
  | .wRun code => Sys2Proof.Machine.execWRun code s
  | .wData data => Sys2Proof.Machine.execWData data s

end Sys2Proof.Machine
end

