-- ==== Sys2Proof/Machine/Step.lean ====
section
/-! DEFINITION. One step of the machine: the host's next command, performed whole (R63, R90), or a store the host makes to its
own memory between two commands; with nothing pending the hardware waits for the next command (R242). -/

namespace Sys2Proof.Machine

/-- One step. A stream that does not begin with a command is refused (R93). -/
def step (s : State) : Host.Outcome State Fault Refusal :=
  match s.pending with
  | [] => .next s
  | .hostWrite a b :: rest => .next ((s.setPending rest).hostStore a b)
  | .byte _ :: _ | .value _ :: _ | .wire _ :: _ =>
    match s.fetch with
    | .ok (i, rest) => exec i (s.setPending rest)
    | .error e => .refused (.undecodable e)

/-- `s` with the instruction of a table word issued as the host's next command (log entry 6). -/
def State.withFetchWord (s : State) (nbits w : Nat) : State :=
  let t := s.readyFor (tableItems nbits w)
  t.setPending (tableItems nbits w ++ s.pending)

end Sys2Proof.Machine
end

