-- ==== Sys2Proof/Safety.lean ====
section
/-! DEFINITION. The vocabulary of the claims: the invariant of the machine between two commands, the wire format as a grammar
with its meaning (`30_encoding.md` R80 to R86), the encoding of a payload as a list function, and runs of several commands. -/

namespace Sys2Proof

/-! ### The wire format -/

/-- A block's length is what its code says (R81, R83); its data may be any bytes. -/
def Block.sized (b : Block) : Bool := b.data.length + 1 == b.code.toNat

/-- A block of the grammar (R80, R81): as long as its code says, and no data byte zero. -/
def Block.wf (b : Block) : Bool := b.sized && b.data.all (· != delim)

/-- The payload a list of blocks stands for (R84): the data of each, and one zero between two blocks exactly when the earlier
one's code is not `0xFF`. -/
def payloadOf : List Block → List Byte
  | [] => []
  | [b] => b.data
  | b :: c :: bs => b.data ++ (if b.code = codeFull then [] else [delim]) ++ payloadOf (c :: bs)

/-- The block with these data bytes (R81). -/
def blockOf (data : List Byte) : Block := { code := BitVec.ofNat 8 (data.length + 1), data := data }

/-- The blocks of a payload, `pend` being the data of the pending block (the prose of R111 and R115, without indices). -/
def encBlocksFrom (pend : List Byte) : List Byte → List Block
  | [] => [blockOf pend]
  | v :: vs =>
    if pend.length = maxData then
      if v = delim then blockOf pend :: blockOf [] :: encBlocksFrom [] vs
      else blockOf pend :: encBlocksFrom [v] vs
    else if v = delim then blockOf pend :: encBlocksFrom [] vs
    else encBlocksFrom (pend ++ [v]) vs

/-- The blocks of a payload (R110). -/
def encBlocks (payload : List Byte) : List Block := encBlocksFrom [] payload

/-- The bytes of a list of blocks (R80). -/
def wireBytes (bs : List Block) : List Byte := bs.flatMap Machine.blockBytes

/-- `enc(P)` of R190. -/
def enc (payload : List Byte) : List Byte := wireBytes (encBlocks payload)

/-- `frame(P)` of R190. -/
def frame (payload : List Byte) : List Byte := enc payload ++ [delim]

/-- The maximal zero-free runs of a payload, cut at its zero bytes (R118). -/
def zeroFreeRuns : List Byte → List (List Byte)
  | [] => [[]]
  | v :: vs =>
    if v = delim then [] :: zeroFreeRuns vs
    else
      match zeroFreeRuns vs with
      | [] => [[v]]
      | r :: rs => (v :: r) :: rs

/-- `S` of R118 for these runs: every run but the last contributes `L / 254`, the last one `(L - 1) / 254` (0 when empty). -/
def fullSplits : List (List Byte) → Nat
  | [] => 0
  | [r] => (r.length - 1) / maxData
  | r :: q :: rs => r.length / maxData + fullSplits (q :: rs)

/-- What follows the complete blocks of an input (R133). -/
inductive FrameEnd where
  /-- The delimiter at a code position, and bytes after it (R139). -/
  | delimiter (after : List Byte)
  /-- Nothing: the input is used up at a code position. -/
  | exhausted
  /-- A code and fewer data bytes than it declares. -/
  | truncated (code : Byte) (present : List Byte)
  deriving DecidableEq, Repr

/-- The bytes of an ending. -/
def FrameEnd.bytes : FrameEnd → List Byte
  | .delimiter after => delim :: after
  | .exhausted => []
  | .truncated code present => code :: present

/-- A truncated ending lacks at least one data byte (R131). -/
def FrameEnd.valid : FrameEnd → Bool
  | .delimiter _ => true
  | .exhausted => true
  | .truncated code present => decide (present.length + 1 < code.toNat)

/-- The emission a sink-mode decode ends with (R136): `m = (code - 1) - (data bytes present)` (R211). -/
def FrameEnd.report : FrameEnd → List Machine.Emission
  | .delimiter _ => []
  | .exhausted => []
  | .truncated code present => [.decode .bd [] (code.toNat - 1 - present.length) true]

/-- The result of a bulk decode with this ending after these blocks (R133, R137). -/
def FrameEnd.ret (bs : List Block) : FrameEnd → Nat
  | .delimiter _ => (payloadOf bs).length
  | .exhausted => (payloadOf bs).length
  | .truncated _ _ => 0

/-- The runs BD emits for these blocks after a block with code `prev` (R132, R134, R141). -/
def bdRunsAfter (prev : Byte) : List Block → List (List Byte)
  | [] => []
  | b :: bs =>
    (if prev = codeFull then [] else [[delim]]) ++ (if b.data = [] then [] else [b.data]) ++ bdRunsAfter b.code bs

/-- The runs BD emits for a list of blocks: no implied zero before the first (R28, R132). -/
def bdRuns (bs : List Block) : List (List Byte) := bdRunsAfter codeFull bs

/-- The unit an instruction is addressed to (R91); a wire row is a byte handed to SD. -/
def Instr.unit : Instr → CobsUnit
  | .beEncSink _ _ => .be
  | .beEncBuf _ _ _ _ => .be
  | .bdDecSink _ _ => .bd
  | .bdDecBuf _ _ _ _ => .bd
  | .seReset => .se
  | .seSink _ => .se
  | .seStop => .se
  | .sdReset => .sd
  | .sdSink _ => .sd
  | .sdStop => .sd
  | .wDelim => .sd
  | .wFull => .sd
  | .wRun _ => .sd
  | .wData _ => .sd

end Sys2Proof

namespace Sys2Proof.Machine

/-! ### Emissions -/

/-- The unit that made an emission. -/
def Emission.unit : Emission → CobsUnit
  | .encode u _ => u
  | .decode u _ _ _ => u

/-- The chunk of an emission (R19). -/
def Emission.bytes : Emission → List Byte
  | .encode _ bs => bs
  | .decode _ bs _ _ => bs

/-- The missing count of an emission; the encode side has none (R96). -/
def Emission.missing : Emission → Nat
  | .encode _ _ => 0
  | .decode _ _ m _ => m

/-- The chunks of these emissions, concatenated in order (R69). -/
def chunks (es : List Emission) : List Byte := es.flatMap Emission.bytes

/-! ### The invariant -/

/-- R31: `SE.cnt` is at most 254, and no pending byte is zero. -/
def State.seOk (s : State) : Bool := decide (s.seCnt ≤ maxData) && s.seData.all (· != delim)

/-- R35: SD awaits a code with nothing buffered, or holds at most the data its code declares, and no data byte is zero. -/
def State.sdOk (s : State) : Bool :=
  (if s.sdCode = 0x00#8 then decide (s.sdSize = 0) else decide (s.sdSize ≤ s.sdCode.toNat - 1)) &&
    s.sdData.all (· != delim)

/-- `RET` is a number of `SIZE_W` bits once it has a value (R24). -/
def State.retOk (s : State) : Bool :=
  match s.ret with
  | none => true
  | some r => s.params.isSize r

/-- The invariant of the machine between two commands. -/
def State.inv (s : State) : Bool := s.seOk && s.sdOk && s.mem.wf && s.retOk

/-! ### Runs and outcomes -/

/-- Apply a function to the next state of an outcome. -/
def mapNext (f : State → State) : Host.Outcome State Fault Refusal → Host.Outcome State Fault Refusal
  | .next s => .next (f s)
  | .fault r => .fault r
  | .refused r => .refused r

/-- The next state of an outcome, if it is one. -/
def nextOf : Host.Outcome State Fault Refusal → Option State
  | .next s => some s
  | .fault _ => none
  | .refused _ => none

/-- Perform commands one after the other (R63, R66), stopping at the first that has no next state. -/
def execAll : List Instr → State → Host.Outcome State Fault Refusal
  | [], s => .next s
  | i :: is, s =>
    match exec i s with
    | .next t => execAll is t
    | .fault r => .fault r
    | .refused r => .refused r

/-- Two spaces share no byte (R60). -/
def disjoint (a n b m : Nat) : Prop := ∀ j k, j < n → k < m → a + j ≠ b + k

end Sys2Proof.Machine
end

