-- ==== Sys2Proof/Certificates/Slice0/Obligations.lean ====
section
/-! DEFINITION. The statements for the provers, each from the rules of `spec/` its docstring names. Where a statement rests on a
decision of the spec (`92_eei_decisions.md`) or on a choice of the model, its docstring names the log entry. -/

open Sys2Proof Sys2Proof.Machine

/-! ### The two encodings -/

/-- R91, R92, R82, R88: words written out bit by bit from the spec's encodings decode to the instructions they stand for. The
opcode numbers are the spec's decision D7 (log entry 8). -/
def Obligations.DecodeReadsTheWrittenOutWords : Prop :=
  ∀ rest : List Item,
    decode resetParams .code (.byte 0b00000000#8 :: .value 7 :: .value 3 :: rest) = .ok (.beEncSink 7 3, rest) ∧
    decode resetParams .code (.byte 0b00000001#8 :: .value 7 :: .value 3 :: .value 9 :: .value 5 :: rest)
      = .ok (.beEncBuf 7 3 9 5, rest) ∧
    decode resetParams .code (.byte 0b00010000#8 :: .value 7 :: .value 3 :: rest) = .ok (.bdDecSink 7 3, rest) ∧
    decode resetParams .code (.byte 0b00010001#8 :: .value 7 :: .value 3 :: .value 9 :: .value 5 :: rest)
      = .ok (.bdDecBuf 7 3 9 5, rest) ∧
    decode resetParams .code (.byte 0b00100000#8 :: rest) = .ok (.seReset, rest) ∧
    decode resetParams .code (.byte 0b00100001#8 :: .byte 0b01000001#8 :: rest) = .ok (.seSink 0x41#8, rest) ∧
    decode resetParams .code (.byte 0b00100010#8 :: rest) = .ok (.seStop, rest) ∧
    decode resetParams .code (.byte 0b00110000#8 :: rest) = .ok (.sdReset, rest) ∧
    decode resetParams .code (.byte 0b00110001#8 :: .byte 0b11111111#8 :: rest) = .ok (.sdSink 0xFF#8, rest) ∧
    decode resetParams .code (.byte 0b00110010#8 :: rest) = .ok (.sdStop, rest) ∧
    decode resetParams .code (.wire 0b00000000#8 :: rest) = .ok (.wDelim, rest) ∧
    decode resetParams .code (.wire 0b11111111#8 :: rest) = .ok (.wFull, rest) ∧
    decode resetParams .code (.wire 0b00000101#8 :: rest) = .ok (.wRun 0x05#8, rest) ∧
    decode resetParams .data (.wire 0b00000101#8 :: rest) = .ok (.wData 0x05#8, rest)

/-- R91, R92, R94, R82, R88: for every machine width, a well-formed instruction's items, followed by anything, decode to that
instruction with every operand as it was, and leave what followed (opcode numbers: D7, log entry 8). -/
def Obligations.DecodeOfEncodeIsTheInstruction : Prop :=
  ∀ (p : Params) (pos : Position) (i : Instr) (rest : List Item),
    i.wf p = true → i.readAt pos = true → decode p pos (encode i ++ rest) = .ok (i, rest)

/-- R92 to R94: the decoder answers an instruction only on that instruction's own items, and the instruction is well formed and
selected by the position; so no two readings of one stream exist (items and refusals: log entries 8 and 9). -/
def Obligations.DecodeReadsOnlyEncodings : Prop :=
  ∀ (p : Params) (pos : Position) (items rest : List Item) (i : Instr),
    decode p pos items = .ok (i, rest) → i.wf p = true ∧ i.readAt pos = true ∧ items = encode i ++ rest

/-- R93: an opcode byte that is not one of the ten of R92 selects no command, and the machine refuses it (D14, log entry 9). -/
def Obligations.UnassignedOpcodesAreRefused : Prop :=
  ∀ (s : State) (op : Byte) (rest : List Item),
    op ∉ [0x00#8, 0x01#8, 0x10#8, 0x11#8, 0x20#8, 0x21#8, 0x22#8, 0x30#8, 0x31#8, 0x32#8] →
      s.pending = .byte op :: rest → step s = .refused (.undecodable (.unassignedOpcode op))

/-- R82, R88: a wire byte is read by position; at a code position `0x00` is the delimiter, `0xFF` a full block's code, and every
other value a run's code, each exactly one class. -/
def Obligations.WireByteIsReadByPosition : Prop :=
  ∀ b : Byte,
    decodeWire .data b = .wData b ∧
    (decodeWire .code b = .wDelim ↔ b = 0x00#8) ∧
    (decodeWire .code b = .wFull ↔ b = 0xFF#8) ∧
    (decodeWire .code b = .wRun b ↔ b ≠ 0x00#8 ∧ b ≠ 0xFF#8) ∧
    (decodeWire .code b = .wDelim ∨ decodeWire .code b = .wFull ∨ decodeWire .code b = .wRun b)

/-! ### The step -/

/-- R90, R63: when the host's stream decodes to an instruction, the step is that instruction's whole effect, on the state whose
stream is what follows it. -/
def Obligations.StepRunsTheDecodedCommand : Prop :=
  ∀ (s : State) (i : Instr) (rest : List Item),
    decode s.params s.position s.pending = .ok (i, rest) → step s = exec i { s with pending := rest }

/-- R242: with no command issued the machine waits and nothing changes (model's reading: log entry 7). -/
def Obligations.StepWaitsWithNothingPending : Prop :=
  ∀ s : State, s.pending = [] → step s = .next s

/-- R53, R62, R66 (b): a store the host makes to its own memory changes the byte at that address and nothing else (the item is
the model's own: log entry 5). -/
def Obligations.HostStoreChangesOneByte : Prop :=
  ∀ (s : State) (a : Nat) (b : Byte) (rest : List Item),
    s.mem.wf = true → s.pending = .hostWrite a b :: rest →
      ∃ m, step s = .next { s with mem := m, pending := rest } ∧ m.wf = true ∧ m.read a = b ∧
        ∀ x, x ≠ a → m.read x = s.mem.read x

/-! ### Reset and the invariant -/

/-- R43, R240: after power-on `SE.cnt`, `SD.code` and `SD.size` are 0, `RET` has no value and the sink's record is empty (power-on
equal to reset is the spec's decision D12, log entry 10; empty memory and stream are log entries 1 and 7). -/
def Obligations.ResetHoldsTheSpecsValues : Prop :=
  State.reset.seCnt = 0 ∧ State.reset.sdCode = 0x00#8 ∧ State.reset.sdSize = 0 ∧ State.reset.ret = none ∧
    State.reset.sink = [] ∧ State.reset.mem = [] ∧ State.reset.pending = []

/-- R31, R35, R43: the state after reset meets the invariant. -/
def Obligations.ResetMeetsTheInvariant : Prop :=
  State.reset.inv = true

/-- R31, R35, R24: every step keeps the invariant, from every state that meets it: `SE.cnt` at most 254 and no pending zero, SD
awaiting a code or within its block and no buffered zero, canonical memory, `RET` a number of `SIZE_W` bits. -/
def Obligations.StepKeepsTheInvariant : Prop :=
  ∀ s t : State, s.inv = true → step s = .next t → t.inv = true

/-! ### Rules of the whole machine -/

/-- R2: no unit reads or writes the state of another unit. A command of a unit other than SD does the same, and leaves SD's state
as it was, whatever SD's state is; the same with SE. BE and BD hold no state between commands (R20). -/
def Obligations.UnitsDoNotReadOrWriteEachOther : Prop :=
  (∀ (i : Instr) (s : State) (c : Byte) (z : Nat) (v : Vector Byte 254), i.unit ≠ .sd →
    exec i { s with sdCode := c, sdSize := z, sdBuf := v }
      = mapNext (fun t => { t with sdCode := c, sdSize := z, sdBuf := v }) (exec i s)) ∧
  (∀ (i : Instr) (s : State) (n : Nat) (v : Vector Byte 254), i.unit ≠ .se →
    exec i { s with seCnt := n, seBuf := v } = mapNext (fun t => { t with seCnt := n, seBuf := v }) (exec i s))

/-- R24, R36, R37: the commands of SE and SD reach neither `SRC` nor `DST`, and have no `RET`: they do the same whatever the
host's memory and `RET` are, and leave both as they were (that `RET` keeps its value: log entry 13). -/
def Obligations.StreamingCommandsIgnoreHostMemory : Prop :=
  ∀ (i : Instr) (s : State) (m : Memory) (r : Option Nat), i.unit = .se ∨ i.unit = .sd →
    exec i { s with mem := m, ret := r } = mapNext (fun t => { t with mem := m, ret := r }) (exec i s)

/-- R10, R23, R41, R69: no command changes the machine's widths or the host's stream, and the sink's record only grows, by
emissions of the command's own unit (one record for all units, each emission with its unit: log entry 14). -/
def Obligations.OutputIsOnlyAppended : Prop :=
  ∀ (i : Instr) (s t : State), exec i s = .next t →
    t.params = s.params ∧ t.pending = s.pending ∧
      ∃ es, t.sink = s.sink ++ es ∧ ∀ e ∈ es, e.unit = i.unit

/-- R37, R55, R114, R135: only `BE.ENC_BUF` and `BD.DEC_BUF` store to the host's memory, and only inside their `DST[0..cap)`; they
make no emission. -/
def Obligations.OnlyBufferCommandsWriteMemory : Prop :=
  ∀ (i : Instr) (s t : State), exec i s = .next t →
    t.mem = s.mem ∨
      ∃ src n dst cap, (i = .beEncBuf src n dst cap ∨ i = .bdDecBuf src n dst cap) ∧ t.sink = s.sink ∧
        ∀ a, a < dst ∨ dst + cap ≤ a → t.mem.read a = s.mem.read a

/-- R54, R55: a bulk command reads only `SRC[0..n)`. Two memories that agree there give the same emissions, the same `RET` and the
same stored bytes; each byte of `DST` is then either the same in both afterwards or untouched in both, so `DST` is never read. -/
def Obligations.BulkCommandsReadOnlySource : Prop :=
  ∀ (s : State) (m : Memory) (src n dst cap : Nat),
    s.mem.wf = true → m.wf = true → (∀ k, k < n → m.read (src + k) = s.mem.read (src + k)) →
      exec (.beEncSink src n) { s with mem := m } = mapNext (fun t => { t with mem := m }) (exec (.beEncSink src n) s) ∧
      exec (.bdDecSink src n) { s with mem := m } = mapNext (fun t => { t with mem := m }) (exec (.bdDecSink src n) s) ∧
      ∀ i, i = .beEncBuf src n dst cap ∨ i = .bdDecBuf src n dst cap →
        ∀ t, exec i s = .next t →
          ∃ m', exec i { s with mem := m } = .next { t with mem := m' } ∧
            ∀ a, m'.read a = t.mem.read a ∨ (m'.read a = m.read a ∧ t.mem.read a = s.mem.read a)

/-- R155, R178: every command of SE and of SD is legal in every state and runs to its end (`SD.RESET` is the spec's decision D13, log
entry 12). -/
def Obligations.StreamingCommandsAlwaysComplete : Prop :=
  ∀ (s : State) (b : Byte),
    ∀ i ∈ [Instr.seReset, .seSink b, .seStop, .sdReset, .sdSink b, .sdStop], ∃ t, exec i s = .next t

/-- R217: no command of BE or SE reports an error; every emission is an encode-side record, and any input, the empty one too,
produces output: the SE commands complete in every state, and both BE commands complete, whatever `cap` is, and never return 0,
the value by which a buffer command reports one (R213). -/
def Obligations.EncodersReportNoError : Prop :=
  (∀ (i : Instr) (s t : State), i.unit = .be ∨ i.unit = .se → exec i s = .next t →
    ∃ es, t.sink = s.sink ++ es ∧ ∀ e ∈ es, ∃ bytes, e = .encode i.unit bytes) ∧
  (∀ (s : State) (b : Byte), ∀ i ∈ [Instr.seReset, .seSink b, .seStop], ∃ t, exec i s = .next t) ∧
  (∀ (s : State) (src n : Nat), n + 1 + (n - 1) / 254 < 2 ^ s.params.sizeW →
    (∃ t, exec (.beEncSink src n) s = .next t ∧ ∃ r, t.ret = some r ∧ 0 < r) ∧
    ∀ dst cap, cap < 2 ^ s.params.sizeW → disjoint src n dst cap →
      ∃ t, exec (.beEncBuf src n dst cap) s = .next t ∧ ∃ r, t.ret = some r ∧ 0 < r)

/-- R9, R60, R204: a bulk command is refused exactly when a size does not fit `SIZE_W`, or its `SRC` and `DST` share a byte (the
refusals are the spec's decisions D2 and D14, log entry 9). -/
def Obligations.BulkCommandsAreRefusedExactlyOnMisuse : Prop :=
  ∀ (s : State) (src n dst cap : Nat),
    let w := 2 ^ s.params.sizeW
    (exec (.beEncSink src n) s = .refused .sizeOverflow ↔ w ≤ n + 1 + (n - 1) / 254) ∧
    ((∃ t, exec (.beEncSink src n) s = .next t) ↔ n + 1 + (n - 1) / 254 < w) ∧
    (exec (.bdDecSink src n) s = .refused .sizeOverflow ↔ w ≤ n) ∧
    ((∃ t, exec (.bdDecSink src n) s = .next t) ↔ n < w) ∧
    (exec (.beEncBuf src n dst cap) s = .refused .sizeOverflow ↔ w ≤ n + 1 + (n - 1) / 254 ∨ w ≤ cap) ∧
    (exec (.beEncBuf src n dst cap) s = .refused .srcDstOverlap
      ↔ n + 1 + (n - 1) / 254 < w ∧ cap < w ∧ ¬ disjoint src n dst cap) ∧
    ((∃ t, exec (.beEncBuf src n dst cap) s = .next t)
      ↔ n + 1 + (n - 1) / 254 < w ∧ cap < w ∧ disjoint src n dst cap) ∧
    (exec (.bdDecBuf src n dst cap) s = .refused .sizeOverflow ↔ w ≤ n ∨ w ≤ cap) ∧
    (exec (.bdDecBuf src n dst cap) s = .refused .srcDstOverlap ↔ n < w ∧ cap < w ∧ ¬ disjoint src n dst cap) ∧
    ((∃ t, exec (.bdDecBuf src n dst cap) s = .next t) ↔ n < w ∧ cap < w ∧ disjoint src n dst cap)

/-! ### The bulk encoder -/

/-- R111 to R113, R115: `BE.ENC_SINK` emits, for each block of the payload in order, its code and then its data span, the last
block always, and returns the number of bytes emitted; nothing else changes. -/
def Obligations.BeSinkEmitsEachBlockTwice : Prop :=
  ∀ (s : State) (src n : Nat), n + 1 + (n - 1) / 254 < 2 ^ s.params.sizeW →
    exec (.beEncSink src n) s = .next { s with
      sink := s.sink ++ (encBlocks (s.mem.span src n)).flatMap (fun b => [.encode .be [b.code], .encode .be b.data])
      ret := some (enc (s.mem.span src n)).length }

/-- R114, R56: `BE.ENC_BUF` returns the full length of the encoding whatever `cap` is, stores its first `min(cap, R)` bytes at the
start of `DST`, and changes no other byte of memory and nothing else. -/
def Obligations.BeBufStoresTheEncodingUpToCap : Prop :=
  ∀ (s : State) (src n dst cap : Nat), s.mem.wf = true →
    n + 1 + (n - 1) / 254 < 2 ^ s.params.sizeW → cap < 2 ^ s.params.sizeW → disjoint src n dst cap →
      let o := enc (s.mem.span src n)
      ∃ m, exec (.beEncBuf src n dst cap) s = .next { s with mem := m, ret := some o.length } ∧
        (∀ k (h : k < o.length), k < cap → m.read (dst + k) = o[k]) ∧
        (∀ a, a < dst ∨ dst + min cap o.length ≤ a → m.read a = s.mem.read a)

/-- R80, R81, R85, R86, R110, R119, R193: what `BE.ENC_SINK` emits is at least one block, every block is as long as its code says
(so at most 254 data bytes) and holds no zero, and the blocks stand for the payload: a zero between two of them exactly where the
earlier code is not `0xFF`. -/
def Obligations.EncodingIsAGrammarFrameOfThePayload : Prop :=
  ∀ (s t : State) (src n : Nat) (es : List Emission), exec (.beEncSink src n) s = .next t → t.sink = s.sink ++ es →
    ∃ bs, bs ≠ [] ∧ (∀ b ∈ bs, b.wf = true) ∧ chunks es = wireBytes bs ∧ payloadOf bs = s.mem.span src n

/-- R26, R112: each time the scan is about to examine the byte at `i`, and when it ends, `code` is 1 to 255,
`start + (code - 1) = i`, and the pending data bytes are non-zero. -/
def Obligations.BeScanKeepsItsWorkingQuantities : Prop :=
  ∀ (payload : List Byte) (k : Nat), k ≤ payload.length →
    let w := (payload.take k).foldl (beByte payload) beInit
    w.i = k ∧ 1 ≤ w.code ∧ w.code ≤ 255 ∧ w.start + (w.code - 1) = k ∧
      ∀ v ∈ slice payload w.start (w.code - 1), v ≠ delim

/-- R192: no byte of an encoding is `0x00`; the chunks of SE's flushes contain none, and the chunk of `SE.STOP` exactly one, its
last byte. -/
def Obligations.EncoderOutputHasNoZero : Prop :=
  (∀ (s t : State) (src n : Nat) (es : List Emission), exec (.beEncSink src n) s = .next t → t.sink = s.sink ++ es →
    ∀ v ∈ chunks es, v ≠ 0x00#8) ∧
  (∀ payload : List Byte, ∀ v ∈ enc payload, v ≠ 0x00#8) ∧
  (∀ (s t : State) (b : Byte) (es : List Emission), s.seOk = true → exec (.seSink b) s = .next t → t.sink = s.sink ++ es →
    ∀ v ∈ chunks es, v ≠ 0x00#8) ∧
  (∀ s : State, s.seOk = true → ∃ t bytes, exec .seStop s = .next t ∧
    t.sink = s.sink ++ [.encode .se (bytes ++ [0x00#8])] ∧ ∀ v ∈ bytes, v ≠ 0x00#8)

/-- R118, R89: with `Z` zero bytes in the payload and `k` blocks, `k = Z + 1 + S` and `RET = N + 1 + S`, where `S` has the closed
form over the zero-free runs; `N + 1 <= RET <= N + 1 + (N - 1) / 254`. -/
def Obligations.EncodingSizeIsTheClosedForm : Prop :=
  ∀ (s : State) (src n : Nat), n + 1 + (n - 1) / 254 < 2 ^ s.params.sizeW →
    let payload := s.mem.span src n
    let splits := fullSplits (zeroFreeRuns payload)
    ∃ t es, exec (.beEncSink src n) s = .next t ∧ t.ret = some (n + 1 + splits) ∧ t.sink = s.sink ++ es ∧
      es.length = 2 * (payload.count delim + 1 + splits) ∧ splits ≤ (n - 1) / 254

/-! ### The bulk decoder -/

/-- R130 to R134, R136, R138, R139: every input is complete blocks and then one of the three endings of R133; `BD.DEC_SINK` emits
the blocks' data verbatim with the implied zeros between them, then the null emission if the frame is truncated, and returns
the decoded length or 0; nothing else changes. (Decisions D9, D10, D11 of the spec: log entry 11. That the missing count is
emitted whole also where `SIZE_W` is below 8: log entry 20.) -/
def Obligations.BdSinkDecodesEveryInput : Prop :=
  ∀ (s : State) (src n : Nat), n < 2 ^ s.params.sizeW →
    ∃ bs e, (∀ b ∈ bs, b.sized = true) ∧ FrameEnd.valid e = true ∧ s.mem.span src n = wireBytes bs ++ e.bytes ∧
      exec (.bdDecSink src n) s = .next { s with
        sink := s.sink ++ ((bdRuns bs).map (fun r => .decode .bd r 0 false) ++ e.report)
        ret := some (e.ret bs) }

/-- R130 to R133, R135, R137, R143, R56: `BD.DEC_BUF` on every input stores the first `min(cap, R)` bytes of the blocks' payload
at the start of `DST`, changes no other byte of memory, makes no emission and returns the decoded length or, for a truncated
frame, 0; nothing else changes. (Decision D10 of the spec: log entry 11.) -/
def Obligations.BdBufDecodesEveryInput : Prop :=
  ∀ (s : State) (src n dst cap : Nat), s.mem.wf = true →
    n < 2 ^ s.params.sizeW → cap < 2 ^ s.params.sizeW → disjoint src n dst cap →
      ∃ bs e m, (∀ b ∈ bs, b.sized = true) ∧ FrameEnd.valid e = true ∧ s.mem.span src n = wireBytes bs ++ e.bytes ∧
        exec (.bdDecBuf src n dst cap) s = .next { s with mem := m, ret := some (e.ret bs) } ∧
        (∀ k (h : k < (payloadOf bs).length), k < cap → m.read (dst + k) = (payloadOf bs)[k]) ∧
        (∀ a, a < dst ∨ dst + min cap (payloadOf bs).length ≤ a → m.read a = s.mem.read a)

/-- R212, R213: when a code byte declares more data bytes than remain, `BD.DEC_SINK` makes one last emission with null pointer,
length 0 and the missing count, and returns 0; `BD.DEC_BUF` returns 0 and reports in no other way; a return of 0 is no proof of
it, since the empty payload returns 0 too. (That the count is emitted whole also where `SIZE_W` is below 8 is the model's choice,
log entry 20.) -/
def Obligations.TruncatedFrameIsReportedOnce : Prop :=
  (∀ (s : State) (src n : Nat) (bs : List Block) (c : Byte) (present : List Byte),
    (∀ b ∈ bs, b.sized = true) → present.length < c.toNat - 1 → n < 2 ^ s.params.sizeW →
    s.mem.span src n = wireBytes bs ++ c :: present →
      (∃ t es, exec (.bdDecSink src n) s = .next t ∧ t.ret = some 0 ∧
        t.sink = s.sink ++ es ++ [.decode .bd [] (c.toNat - 1 - present.length) true] ∧
        ∀ e ∈ es, ∃ bytes, e = .decode .bd bytes 0 false) ∧
      (∀ dst cap, cap < 2 ^ s.params.sizeW → disjoint src n dst cap →
        ∃ t, exec (.bdDecBuf src n dst cap) s = .next t ∧ t.ret = some 0 ∧ t.sink = s.sink)) ∧
  (∀ (s : State) (src dst cap : Nat), cap < 2 ^ s.params.sizeW →
    ∃ t, exec (.bdDecBuf src 0 dst cap) s = .next t ∧ t.ret = some 0)

/-- R199, R131, R133, R142: decoding never lengthens: `n` input bytes decode to at most `n - 1` bytes (none for `n = 0`), in the
result and in the emitted bytes, for every input, truncated ones too. (That `RET` of `BD.DEC_SINK` is the decoded length is
decision D11 of the spec, that an incomplete block outputs nothing is D10: log entry 11.) -/
def Obligations.DecodingNeverLengthens : Prop :=
  ∀ (s t : State) (src n dst cap : Nat),
    (exec (.bdDecSink src n) s = .next t →
      (∃ r, t.ret = some r ∧ r ≤ n - 1) ∧ ∀ es, t.sink = s.sink ++ es → (chunks es).length ≤ n - 1) ∧
    (exec (.bdDecBuf src n dst cap) s = .next t → ∃ r, t.ret = some r ∧ r ≤ n - 1)

/-- R131, R205: the loop of the parse makes at most `n` turns and then ends; more turns would change nothing. -/
def Obligations.BdParseEndsWithinItsInput : Prop :=
  ∀ (input : List Byte) (more : Nat), bdLoop input (input.length + 1 + more) bdInit = bdParse input

/-- R55, R110, R130, R194: in either bulk unit the bounded-buffer mode produces, byte for byte, the bytes the sink mode emits: the
same `RET`, the first `min(cap, R)` of those bytes at the start of `DST`, no other byte changed. (That BD's two forms return the
same on success is decision D11 of the spec, log entry 11.) -/
def Obligations.BufferModeStoresWhatSinkModeEmits : Prop :=
  ∀ (s : State) (src n dst cap : Nat) (sinkForm bufForm : Instr), s.mem.wf = true →
    (sinkForm = .beEncSink src n ∧ bufForm = .beEncBuf src n dst cap) ∨
      (sinkForm = .bdDecSink src n ∧ bufForm = .bdDecBuf src n dst cap) →
    ∀ t u es, exec sinkForm s = .next t → t.sink = s.sink ++ es → exec bufForm s = .next u →
      u.ret = t.ret ∧
      (∀ k (h : k < (chunks es).length), k < cap → u.mem.read (dst + k) = (chunks es)[k]) ∧
      (∀ a, a < dst ∨ dst + min cap (chunks es).length ≤ a → u.mem.read a = s.mem.read a)

/-! ### The streaming encoder -/

/-- R152, R174, R241: `SE.RESET` and `SD.RESET` write nothing but the counters of their unit, and emit nothing (`SD.RESET` is the
spec's decision D13, log entry 12). -/
def Obligations.ResetCommandsWriteOnlyTheCounters : Prop :=
  ∀ s : State,
    exec .seReset s = .next { s with seCnt := 0 } ∧
    exec .sdReset s = .next { s with sdCode := 0x00#8, sdSize := 0 }

/-- R153: `SE.SINK b` in its four cases: a byte that is not zero joins the pending block, after the full block has been emitted if
there was one; a zero emits the pending block, after the full block if there was one; nothing else changes. -/
def Obligations.SeSinkTakesOneByte : Prop :=
  ∀ (s : State) (b : Byte), s.seCnt ≤ 254 →
    exec (.seSink b) s = .next (
      if s.seCnt = 254 then
        if b = 0x00#8 then
          { s with sink := s.sink ++ [.encode .se (0xFF#8 :: s.seBuf.toList), .encode .se [0x01#8]], seCnt := 0 }
        else
          { s with
            sink := s.sink ++ [.encode .se (0xFF#8 :: s.seBuf.toList)], seBuf := s.seBuf.setIfInBounds 0 b, seCnt := 1 }
      else
        if b = 0x00#8 then
          { s with sink := s.sink ++ [.encode .se (BitVec.ofNat 8 (s.seCnt + 1) :: s.seBuf.toList.take s.seCnt)], seCnt := 0 }
        else { s with seBuf := s.seBuf.setIfInBounds s.seCnt b, seCnt := s.seCnt + 1 })

/-- R154: `SE.STOP` makes exactly one emission, the pending block with the delimiter in the same chunk, and then is ready for a new
frame; nothing else changes. -/
def Obligations.SeStopEmitsTheLastBlockAndTheDelimiter : Prop :=
  ∀ s : State,
    exec .seStop s = .next { s with
      sink := s.sink ++ [.encode .se (BitVec.ofNat 8 (s.seCnt + 1) :: (s.seBuf.toList.take s.seCnt ++ [0x00#8]))]
      seCnt := 0 }

/-- R195: from `SE.cnt = 0`, feeding a payload to SE byte by byte and then `SE.STOP` emits, concatenated, exactly the bytes
`BE.ENC_SINK` emits for that payload and the delimiter after them, and leaves `SE.cnt = 0`; the blocks are the same, two
emissions each in BE, one each in SE with the delimiter in the last; and after the first `k` bytes `SE.cnt` is `BE.code - 1` and
the pending bytes are the bytes BE has pending. -/
def Obligations.StreamingEncoderEqualsBulkEncoder : Prop :=
  ∀ (s v : State) (src n : Nat), n + 1 + (n - 1) / 254 < 2 ^ v.params.sizeW → s.seCnt = 0 →
    let payload := v.mem.span src n
    (∃ t es u fs, exec (.beEncSink src n) v = .next t ∧ t.sink = v.sink ++ es ∧
      execAll (payload.map Instr.seSink ++ [.seStop]) s = .next u ∧ u.sink = s.sink ++ fs ∧
      chunks fs = chunks es ++ [0x00#8] ∧ u.seCnt = 0 ∧
      ∃ (bs : List Block) (last : Block), es = (bs ++ [last]).flatMap (fun b => [.encode .be [b.code], .encode .be b.data]) ∧
        fs = bs.map (fun b => .encode .se (b.code :: b.data)) ++ [.encode .se (last.code :: last.data ++ [0x00#8])]) ∧
    ∀ k, k ≤ n →
      let w := (payload.take k).foldl (beByte payload) beInit
      ∃ u, execAll ((payload.take k).map Instr.seSink) s = .next u ∧ u.seCnt = w.code - 1 ∧
        u.seBuf.toList.take u.seCnt = slice payload w.start (k - w.start)

/-! ### The streaming decoder -/

/-- R175: `SD.SINK b` in its five cases: a zero ends the frame with the buffered bytes and the missing count; a byte that awaits a
code is recorded; a byte inside a block joins the buffer; a byte after a complete block releases that block, with the implied
zero unless its code is `0xFF`, and is recorded as the new code; nothing else changes. (The emission is also made when it is
empty: decision D19 of the spec, log entry 11.) -/
def Obligations.SdSinkTakesOneByte : Prop :=
  ∀ (s : State) (b : Byte), s.sdOk = true →
    exec (.sdSink b) s = .next (
      if b = 0x00#8 then
        { s with
          sink := s.sink ++ [.decode .sd (s.sdBuf.toList.take s.sdSize)
            (if s.sdCode = 0x00#8 then 0 else s.sdCode.toNat - s.sdSize - 1) false]
          sdCode := 0x00#8, sdSize := 0 }
      else if s.sdCode = 0x00#8 then { s with sdCode := b, sdSize := 0 }
      else if s.sdSize < s.sdCode.toNat - 1 then
        { s with sdBuf := s.sdBuf.setIfInBounds s.sdSize b, sdSize := s.sdSize + 1 }
      else if s.sdCode = 0xFF#8 then
        { s with sink := s.sink ++ [.decode .sd s.sdBuf.toList 0 false], sdCode := b, sdSize := 0 }
      else
        { s with
          sink := s.sink ++ [.decode .sd (s.sdBuf.toList.take s.sdSize ++ [0x00#8]) 0 false]
          sdBuf := s.sdBuf.setIfInBounds s.sdSize 0x00#8, sdCode := b, sdSize := 0 })

/-- R173, R176: `SD.STOP` makes exactly one emission, the buffered bytes with the missing count of the literal formula, and awaits a
code; `SD.SINK 0x00` is the same transition. (The emission is also made when it is empty: D19, log entry 11.) -/
def Obligations.SdStopEndsTheFrame : Prop :=
  ∀ s : State,
    exec .sdStop s = .next { s with
      sink := s.sink ++ [.decode .sd (s.sdBuf.toList.take s.sdSize)
        (if s.sdCode = 0x00#8 then 0 else s.sdCode.toNat - s.sdSize - 1) false]
      sdCode := 0x00#8, sdSize := 0 } ∧
    exec (.sdSink 0x00#8) s = exec .sdStop s

/-- R177: the missing count a frame ends with, by a zero byte or by `SD.STOP`, at the boundaries: (0, 0) gives 0; (c, c-1) gives 0
for c from 1; (c, c-2) gives 1 for c from 2; (c, 0) gives c-1 for c from 1. (The emission that carries it is also made when
nothing is buffered: decision D19, log entry 11.) -/
def Obligations.LeftValuesAtTheBoundaries : Prop :=
  ∀ (s : State) (i : Instr), i = .sdStop ∨ i = .sdSink 0x00#8 →
    ∃ t bytes left, exec i s = .next t ∧ t.sink = s.sink ++ [.decode .sd bytes left false] ∧
      (s.sdCode = 0x00#8 ∧ s.sdSize = 0 → left = 0) ∧
      (1 ≤ s.sdCode.toNat ∧ s.sdSize = s.sdCode.toNat - 1 → left = 0) ∧
      (2 ≤ s.sdCode.toNat ∧ s.sdSize = s.sdCode.toNat - 2 → left = 1) ∧
      (1 ≤ s.sdCode.toNat ∧ s.sdSize = 0 → left = s.sdCode.toNat - 1)

/-- R35, R171: between two commands exactly one of the three logical states holds. -/
def Obligations.ExactlyOneLogicalState : Prop :=
  ∀ s : State, s.sdOk = true →
    (s.awaitingCode = true ∧ s.receivingBlock = false ∧ s.blockComplete = false) ∨
    (s.awaitingCode = false ∧ s.receivingBlock = true ∧ s.blockComplete = false) ∨
    (s.awaitingCode = false ∧ s.receivingBlock = false ∧ s.blockComplete = true)

/-- R172: the next logical state, row by row of the transition table (its row of `SD.RESET` is the spec's decision D13, log entry
12). -/
def Obligations.LogicalStatesFollowTheTable : Prop :=
  ∀ (s : State) (b : Byte), s.sdOk = true →
    (∃ t, exec .sdReset s = .next t ∧ t.awaitingCode = true) ∧
    (∃ t, exec .sdStop s = .next t ∧ t.awaitingCode = true) ∧
    ∃ t, exec (.sdSink b) s = .next t ∧
      (b = 0x00#8 → t.awaitingCode = true) ∧
      (b = 0x01#8 ∧ s.receivingBlock = false → t.blockComplete = true ∧ t.sdCode = b ∧ t.sdSize = 0) ∧
      (2 ≤ b.toNat ∧ s.receivingBlock = false → t.receivingBlock = true ∧ t.sdCode = b ∧ t.sdSize = 0) ∧
      (b ≠ 0x00#8 ∧ s.receivingBlock = true ∧ s.sdSize < s.sdCode.toNat - 2 →
        t.receivingBlock = true ∧ t.sdSize = s.sdSize + 1) ∧
      (b ≠ 0x00#8 ∧ s.receivingBlock = true ∧ s.sdSize = s.sdCode.toNat - 2 →
        t.blockComplete = true ∧ t.sdSize = s.sdCode.toNat - 1)

/-- R214, R215: a zero byte, or `SD.STOP`, in ReceivingBlock reports the truncation: the emission carries the `SD.size` bytes
received and a missing count of at least 1; in the other two logical states `SD.STOP` reports 0. (That it makes its emission there
also when nothing is buffered is decision D19, log entry 11.) -/
def Obligations.EndingInsideABlockReportsTruncation : Prop :=
  ∀ s : State, s.sdOk = true →
    (s.receivingBlock = true → ∀ i, i = .sdStop ∨ i = .sdSink 0x00#8 →
      ∃ t bytes left, exec i s = .next t ∧ t.sink = s.sink ++ [.decode .sd bytes left false] ∧
        bytes = s.sdBuf.toList.take s.sdSize ∧ bytes.length = s.sdSize ∧
        left = s.sdCode.toNat - s.sdSize - 1 ∧ 1 ≤ left) ∧
    (s.receivingBlock = false →
      ∃ t bytes, exec .sdStop s = .next t ∧ t.sink = s.sink ++ [.decode .sd bytes 0 false])

/-- R88: position is a function of the bytes read: after a code byte `c` at a code position, the next `c - 1` bytes are at data
positions and the byte after them is at a code position again; after the end of a frame the next byte is at a code position. -/
def Obligations.PositionFollowsTheBytesRead : Prop :=
  (∀ (s : State) (c : Byte) (ds : List Byte), s.sdOk = true → s.position = .code → c ≠ 0x00#8 → (∀ d ∈ ds, d ≠ 0x00#8) →
    ds.length + 1 ≤ c.toNat →
      ∃ t, execAll (.sdSink c :: ds.map Instr.sdSink) s = .next t ∧
        t.position = (if ds.length + 1 = c.toNat then .code else .data) ∧
        t.sdCode = c ∧ t.sdSize = ds.length ∧ t.sdBuf.toList.take t.sdSize = ds) ∧
  (∀ s : State, ∃ t, exec (.sdSink 0x00#8) s = .next t ∧ t.position = .code)

/-- R82, R88, R175: the row a wire byte is read as at SD's position has exactly the effect of `SD.SINK` with that byte (that a wire
row runs on SD is the model's choice, log entry 4). -/
def Obligations.WireRowsActAsSdSink : Prop :=
  ∀ (s : State) (b : Byte), exec (decodeWire s.position b) s = exec (.sdSink b) s

/-- R82, R84, R87, R88: the wire rows at the position that selects them: the delimiter ends a frame with nothing missing; a code
releases a complete block, with its implied zero unless it was full, and is recorded; a data byte joins the buffer, and a zero
there ends the frame with the count still missing (that a wire row runs on SD is the model's choice, log entry 4; that the
delimiter's emission is also made when nothing is buffered is decision D19, log entry 11). -/
def Obligations.WireRowsRunAtTheirPosition : Prop :=
  ∀ s : State, s.sdOk = true →
    (s.position = .code →
      exec .wDelim s = .next { s with
        sink := s.sink ++ [.decode .sd (s.sdBuf.toList.take s.sdSize) 0 false], sdCode := 0x00#8, sdSize := 0 } ∧
      ∀ (c : Byte) (i : Instr), (c = 0xFF#8 ∧ i = .wFull) ∨ (c ≠ 0x00#8 ∧ c ≠ 0xFF#8 ∧ i = .wRun c) →
        exec i s = .next (
          if s.sdCode = 0x00#8 then { s with sdCode := c, sdSize := 0 }
          else if s.sdCode = 0xFF#8 then
            { s with sink := s.sink ++ [.decode .sd s.sdBuf.toList 0 false], sdCode := c, sdSize := 0 }
          else
            { s with
              sink := s.sink ++ [.decode .sd (s.sdBuf.toList.take s.sdSize ++ [0x00#8]) 0 false]
              sdBuf := s.sdBuf.setIfInBounds s.sdSize 0x00#8, sdCode := c, sdSize := 0 })) ∧
    (s.position = .data → ∀ d : Byte,
      exec (.wData d) s = .next (
        if d = 0x00#8 then
          { s with
            sink := s.sink ++ [.decode .sd (s.sdBuf.toList.take s.sdSize) (s.sdCode.toNat - s.sdSize - 1) false]
            sdCode := 0x00#8, sdSize := 0 }
        else { s with sdBuf := s.sdBuf.setIfInBounds s.sdSize d, sdSize := s.sdSize + 1 }))

/-- R88: a wire row at a position that does not select it is refused (the model's choice, log entry 4). -/
def Obligations.WireRowsAreRefusedElsewhere : Prop :=
  ∀ (s : State) (b : Byte),
    (s.position = .data → ∀ i ∈ [Instr.wDelim, .wFull, .wRun b], exec i s = .refused .wirePosition) ∧
    (s.position = .code → exec (.wData b) s = .refused .wirePosition)

/-- Upper bounds: a command of SE makes at most two emissions (R153, R154), each of 1 to 256 bytes and beginning with a code (R156);
a command of SD makes at most one (R174 to R176), of at most 254 bytes (R183). -/
def Obligations.StreamingEmissionsAreBounded : Prop :=
  ∀ (i : Instr) (s t : State) (es : List Emission), s.seOk = true → s.sdOk = true → exec i s = .next t →
    t.sink = s.sink ++ es →
      (i.unit = .se → es.length ≤ 2 ∧
        ∀ e ∈ es, e.bytes.length ≤ 256 ∧ ∃ c rest, e.bytes = c :: rest ∧ c ≠ 0x00#8) ∧
      (i.unit = .sd → es.length ≤ 1 ∧ ∀ e ∈ es, e.bytes.length ≤ 254)

/-! ### Laws that bind the units -/

/-- R191: for every payload, decoding its encoding gives it back, (a) in bulk with the delimiter, (b) in bulk without it, (c) into a
buffer large enough, (d) byte by byte with the delimiter and (e) byte by byte with `SD.STOP`; `enc` is what BE emits (R190, and
`BeSinkEmitsEachBlockTwice`). -/
def Obligations.RoundTripOfEveryPayload : Prop :=
  ∀ payload : List Byte,
    (∀ (s : State) (src n : Nat) (f : List Byte), f = frame payload ∨ f = enc payload →
      s.mem.span src n = f → n < 2 ^ s.params.sizeW →
        ∃ t es, exec (.bdDecSink src n) s = .next t ∧ t.sink = s.sink ++ es ∧ chunks es = payload ∧
          ∀ e ∈ es, ∃ bytes, e = .decode .bd bytes 0 false) ∧
    (∀ (s : State) (src n dst cap : Nat), s.mem.wf = true → s.mem.span src n = frame payload →
      n < 2 ^ s.params.sizeW → cap < 2 ^ s.params.sizeW → disjoint src n dst cap → payload.length ≤ cap →
        ∃ t, exec (.bdDecBuf src n dst cap) s = .next t ∧ t.ret = some payload.length ∧
          t.mem.span dst payload.length = payload) ∧
    (∀ (s : State) (is : List Instr), s.sdCode = 0x00#8 → s.sdSize = 0 →
      is = (frame payload).map Instr.sdSink ∨ is = (enc payload).map Instr.sdSink ++ [.sdStop] →
        ∃ t es, execAll is s = .next t ∧ t.sink = s.sink ++ es ∧ chunks es = payload ∧
          (∀ e ∈ es, ∃ bytes, e = .decode .sd bytes 0 false) ∧ t.sdCode = 0x00#8 ∧ t.sdSize = 0)

/-- R84, R197: a frame of well-formed blocks decodes, in bulk and byte by byte, with the delimiter or ended by `SD.STOP`, to each
block's data and one implied zero between two blocks exactly when the earlier one's code is not `0xFF`. -/
def Obligations.DecodersYieldThePayloadOfTheBlocks : Prop :=
  ∀ bs : List Block, (∀ b ∈ bs, b.wf = true) →
    (∀ (s : State) (src n : Nat), n < 2 ^ s.params.sizeW →
      s.mem.span src n = wireBytes bs ++ [0x00#8] ∨ s.mem.span src n = wireBytes bs →
        ∃ t es, exec (.bdDecSink src n) s = .next t ∧ t.sink = s.sink ++ es ∧ chunks es = payloadOf bs ∧
          ∀ e ∈ es, e.missing = 0) ∧
    (∀ (s : State) (is : List Instr), s.sdCode = 0x00#8 → s.sdSize = 0 →
      is = (wireBytes bs ++ [0x00#8]).map Instr.sdSink ∨ is = (wireBytes bs).map Instr.sdSink ++ [.sdStop] →
        ∃ t es, execAll is s = .next t ∧ t.sink = s.sink ++ es ∧ chunks es = payloadOf bs ∧
          ∀ e ∈ es, e.missing = 0)

/-- R196: an input without a zero that ends inside a block makes both bulk forms return 0, and makes SD, fed the bytes and then
`SD.STOP`, end with an emission whose missing count is the number of bytes lacking, the same number `BD.DEC_SINK` reports. (That BD emits the
count whole also where `SIZE_W` is below 8 is the model's choice, log entry 20.) -/
def Obligations.TruncationIsDetectedByAllDecoders : Prop :=
  ∀ (bs : List Block) (c : Byte) (present : List Byte),
    (∀ b ∈ bs, b.wf = true) → (∀ v ∈ present, v ≠ 0x00#8) → present.length < c.toNat - 1 →
      ∃ m, m = c.toNat - 1 - present.length ∧ 1 ≤ m ∧
        (∀ (s : State) (src n : Nat), n < 2 ^ s.params.sizeW → s.mem.span src n = wireBytes bs ++ c :: present →
          (∃ t es, exec (.bdDecSink src n) s = .next t ∧ t.ret = some 0 ∧ t.sink = s.sink ++ es ++ [.decode .bd [] m true]) ∧
          ∀ dst cap, cap < 2 ^ s.params.sizeW → disjoint src n dst cap →
            ∃ t, exec (.bdDecBuf src n dst cap) s = .next t ∧ t.ret = some 0) ∧
        (∀ s : State, s.sdCode = 0x00#8 → s.sdSize = 0 →
          ∃ t es, execAll ((wireBytes bs ++ c :: present).map Instr.sdSink ++ [.sdStop]) s = .next t ∧
            t.sink = s.sink ++ es ++ [.decode .sd present m false] ∧ ∀ e ∈ es, e.missing = 0)

/-- R194, R101: measuring with capacity 0 stores nothing and returns the size R; filling a buffer of exactly R bytes returns the
same R and stores the encoding; with the delimiter the host puts after it, decoding that buffer gives the payload back. -/
def Obligations.MeasureThenFillThenDecodeRestoresThePayload : Prop :=
  ∀ (s : State) (src n dst out cap : Nat), s.mem.wf = true → n + 2 + (n - 1) / 254 < 2 ^ s.params.sizeW →
    cap < 2 ^ s.params.sizeW → n ≤ cap →
      ∃ r, exec (.beEncBuf src n dst 0) s = .next { s with ret := some r } ∧
        (disjoint src n dst r → disjoint dst (r + 1) out cap →
          ∃ t u, exec (.beEncBuf src n dst r) s = .next t ∧ t.ret = some r ∧
            t.mem.span dst r = enc (s.mem.span src n) ∧
            exec (.bdDecBuf dst (r + 1) out cap) { t with mem := t.mem.write (dst + r) 0x00#8 } = .next u ∧
            u.ret = some n ∧ u.mem.span out n = s.mem.span src n)

/-- R198: two payloads whose encodings are the same bytes are the same payload. -/
def Obligations.EncodingIsInjective : Prop :=
  ∀ (s s' t t' : State) (src src' n n' : Nat) (es es' : List Emission),
    exec (.beEncSink src n) s = .next t → t.sink = s.sink ++ es →
    exec (.beEncSink src' n') s' = .next t' → t'.sink = s'.sink ++ es' →
      chunks es = chunks es' → s.mem.span src n = s'.mem.span src' n'
end

