-- ==== Sys2Proof/Laws/State.lean ====
section
/-! SUPPORT. One lemma per field of `State` and update of it: the updated field reads as written, every other field as before. -/

namespace Sys2Proof.Machine

@[simp] theorem State.params_emit (s : State) (es : List Emission) : (s.emit es).params = s.params := rfl
@[simp] theorem State.seCnt_emit (s : State) (es : List Emission) : (s.emit es).seCnt = s.seCnt := rfl
@[simp] theorem State.seBuf_emit (s : State) (es : List Emission) : (s.emit es).seBuf = s.seBuf := rfl
@[simp] theorem State.sdCode_emit (s : State) (es : List Emission) : (s.emit es).sdCode = s.sdCode := rfl
@[simp] theorem State.sdSize_emit (s : State) (es : List Emission) : (s.emit es).sdSize = s.sdSize := rfl
@[simp] theorem State.sdBuf_emit (s : State) (es : List Emission) : (s.emit es).sdBuf = s.sdBuf := rfl
@[simp] theorem State.ret_emit (s : State) (es : List Emission) : (s.emit es).ret = s.ret := rfl
@[simp] theorem State.mem_emit (s : State) (es : List Emission) : (s.emit es).mem = s.mem := rfl
@[simp] theorem State.sink_emit (s : State) (es : List Emission) : (s.emit es).sink = s.sink ++ es := rfl
@[simp] theorem State.pending_emit (s : State) (es : List Emission) : (s.emit es).pending = s.pending := rfl

@[simp] theorem State.params_setRet (s : State) (v : Nat) : (s.setRet v).params = s.params := rfl
@[simp] theorem State.seCnt_setRet (s : State) (v : Nat) : (s.setRet v).seCnt = s.seCnt := rfl
@[simp] theorem State.seBuf_setRet (s : State) (v : Nat) : (s.setRet v).seBuf = s.seBuf := rfl
@[simp] theorem State.sdCode_setRet (s : State) (v : Nat) : (s.setRet v).sdCode = s.sdCode := rfl
@[simp] theorem State.sdSize_setRet (s : State) (v : Nat) : (s.setRet v).sdSize = s.sdSize := rfl
@[simp] theorem State.sdBuf_setRet (s : State) (v : Nat) : (s.setRet v).sdBuf = s.sdBuf := rfl
@[simp] theorem State.ret_setRet (s : State) (v : Nat) : (s.setRet v).ret = some v := rfl
@[simp] theorem State.mem_setRet (s : State) (v : Nat) : (s.setRet v).mem = s.mem := rfl
@[simp] theorem State.sink_setRet (s : State) (v : Nat) : (s.setRet v).sink = s.sink := rfl
@[simp] theorem State.pending_setRet (s : State) (v : Nat) : (s.setRet v).pending = s.pending := rfl

@[simp] theorem State.params_setMem (s : State) (m : Memory) : (s.setMem m).params = s.params := rfl
@[simp] theorem State.seCnt_setMem (s : State) (m : Memory) : (s.setMem m).seCnt = s.seCnt := rfl
@[simp] theorem State.seBuf_setMem (s : State) (m : Memory) : (s.setMem m).seBuf = s.seBuf := rfl
@[simp] theorem State.sdCode_setMem (s : State) (m : Memory) : (s.setMem m).sdCode = s.sdCode := rfl
@[simp] theorem State.sdSize_setMem (s : State) (m : Memory) : (s.setMem m).sdSize = s.sdSize := rfl
@[simp] theorem State.sdBuf_setMem (s : State) (m : Memory) : (s.setMem m).sdBuf = s.sdBuf := rfl
@[simp] theorem State.ret_setMem (s : State) (m : Memory) : (s.setMem m).ret = s.ret := rfl
@[simp] theorem State.mem_setMem (s : State) (m : Memory) : (s.setMem m).mem = m := rfl
@[simp] theorem State.sink_setMem (s : State) (m : Memory) : (s.setMem m).sink = s.sink := rfl
@[simp] theorem State.pending_setMem (s : State) (m : Memory) : (s.setMem m).pending = s.pending := rfl

@[simp] theorem State.params_setSeCnt (s : State) (c : Nat) : (s.setSeCnt c).params = s.params := rfl
@[simp] theorem State.seCnt_setSeCnt (s : State) (c : Nat) : (s.setSeCnt c).seCnt = c := rfl
@[simp] theorem State.seBuf_setSeCnt (s : State) (c : Nat) : (s.setSeCnt c).seBuf = s.seBuf := rfl
@[simp] theorem State.sdCode_setSeCnt (s : State) (c : Nat) : (s.setSeCnt c).sdCode = s.sdCode := rfl
@[simp] theorem State.sdSize_setSeCnt (s : State) (c : Nat) : (s.setSeCnt c).sdSize = s.sdSize := rfl
@[simp] theorem State.sdBuf_setSeCnt (s : State) (c : Nat) : (s.setSeCnt c).sdBuf = s.sdBuf := rfl
@[simp] theorem State.ret_setSeCnt (s : State) (c : Nat) : (s.setSeCnt c).ret = s.ret := rfl
@[simp] theorem State.mem_setSeCnt (s : State) (c : Nat) : (s.setSeCnt c).mem = s.mem := rfl
@[simp] theorem State.sink_setSeCnt (s : State) (c : Nat) : (s.setSeCnt c).sink = s.sink := rfl
@[simp] theorem State.pending_setSeCnt (s : State) (c : Nat) : (s.setSeCnt c).pending = s.pending := rfl

@[simp] theorem State.params_setSeByte (s : State) (i : Nat) (b : Byte) : (s.setSeByte i b).params = s.params := rfl
@[simp] theorem State.seCnt_setSeByte (s : State) (i : Nat) (b : Byte) : (s.setSeByte i b).seCnt = s.seCnt := rfl
@[simp] theorem State.seBuf_setSeByte (s : State) (i : Nat) (b : Byte) : (s.setSeByte i b).seBuf = s.seBuf.setIfInBounds i b := rfl
@[simp] theorem State.sdCode_setSeByte (s : State) (i : Nat) (b : Byte) : (s.setSeByte i b).sdCode = s.sdCode := rfl
@[simp] theorem State.sdSize_setSeByte (s : State) (i : Nat) (b : Byte) : (s.setSeByte i b).sdSize = s.sdSize := rfl
@[simp] theorem State.sdBuf_setSeByte (s : State) (i : Nat) (b : Byte) : (s.setSeByte i b).sdBuf = s.sdBuf := rfl
@[simp] theorem State.ret_setSeByte (s : State) (i : Nat) (b : Byte) : (s.setSeByte i b).ret = s.ret := rfl
@[simp] theorem State.mem_setSeByte (s : State) (i : Nat) (b : Byte) : (s.setSeByte i b).mem = s.mem := rfl
@[simp] theorem State.sink_setSeByte (s : State) (i : Nat) (b : Byte) : (s.setSeByte i b).sink = s.sink := rfl
@[simp] theorem State.pending_setSeByte (s : State) (i : Nat) (b : Byte) : (s.setSeByte i b).pending = s.pending := rfl

@[simp] theorem State.params_setSdCode (s : State) (c : Byte) : (s.setSdCode c).params = s.params := rfl
@[simp] theorem State.seCnt_setSdCode (s : State) (c : Byte) : (s.setSdCode c).seCnt = s.seCnt := rfl
@[simp] theorem State.seBuf_setSdCode (s : State) (c : Byte) : (s.setSdCode c).seBuf = s.seBuf := rfl
@[simp] theorem State.sdCode_setSdCode (s : State) (c : Byte) : (s.setSdCode c).sdCode = c := rfl
@[simp] theorem State.sdSize_setSdCode (s : State) (c : Byte) : (s.setSdCode c).sdSize = s.sdSize := rfl
@[simp] theorem State.sdBuf_setSdCode (s : State) (c : Byte) : (s.setSdCode c).sdBuf = s.sdBuf := rfl
@[simp] theorem State.ret_setSdCode (s : State) (c : Byte) : (s.setSdCode c).ret = s.ret := rfl
@[simp] theorem State.mem_setSdCode (s : State) (c : Byte) : (s.setSdCode c).mem = s.mem := rfl
@[simp] theorem State.sink_setSdCode (s : State) (c : Byte) : (s.setSdCode c).sink = s.sink := rfl
@[simp] theorem State.pending_setSdCode (s : State) (c : Byte) : (s.setSdCode c).pending = s.pending := rfl

@[simp] theorem State.params_setSdSize (s : State) (n : Nat) : (s.setSdSize n).params = s.params := rfl
@[simp] theorem State.seCnt_setSdSize (s : State) (n : Nat) : (s.setSdSize n).seCnt = s.seCnt := rfl
@[simp] theorem State.seBuf_setSdSize (s : State) (n : Nat) : (s.setSdSize n).seBuf = s.seBuf := rfl
@[simp] theorem State.sdCode_setSdSize (s : State) (n : Nat) : (s.setSdSize n).sdCode = s.sdCode := rfl
@[simp] theorem State.sdSize_setSdSize (s : State) (n : Nat) : (s.setSdSize n).sdSize = n := rfl
@[simp] theorem State.sdBuf_setSdSize (s : State) (n : Nat) : (s.setSdSize n).sdBuf = s.sdBuf := rfl
@[simp] theorem State.ret_setSdSize (s : State) (n : Nat) : (s.setSdSize n).ret = s.ret := rfl
@[simp] theorem State.mem_setSdSize (s : State) (n : Nat) : (s.setSdSize n).mem = s.mem := rfl
@[simp] theorem State.sink_setSdSize (s : State) (n : Nat) : (s.setSdSize n).sink = s.sink := rfl
@[simp] theorem State.pending_setSdSize (s : State) (n : Nat) : (s.setSdSize n).pending = s.pending := rfl

@[simp] theorem State.params_setSdByte (s : State) (i : Nat) (b : Byte) : (s.setSdByte i b).params = s.params := rfl
@[simp] theorem State.seCnt_setSdByte (s : State) (i : Nat) (b : Byte) : (s.setSdByte i b).seCnt = s.seCnt := rfl
@[simp] theorem State.seBuf_setSdByte (s : State) (i : Nat) (b : Byte) : (s.setSdByte i b).seBuf = s.seBuf := rfl
@[simp] theorem State.sdCode_setSdByte (s : State) (i : Nat) (b : Byte) : (s.setSdByte i b).sdCode = s.sdCode := rfl
@[simp] theorem State.sdSize_setSdByte (s : State) (i : Nat) (b : Byte) : (s.setSdByte i b).sdSize = s.sdSize := rfl
@[simp] theorem State.sdBuf_setSdByte (s : State) (i : Nat) (b : Byte) : (s.setSdByte i b).sdBuf = s.sdBuf.setIfInBounds i b := rfl
@[simp] theorem State.ret_setSdByte (s : State) (i : Nat) (b : Byte) : (s.setSdByte i b).ret = s.ret := rfl
@[simp] theorem State.mem_setSdByte (s : State) (i : Nat) (b : Byte) : (s.setSdByte i b).mem = s.mem := rfl
@[simp] theorem State.sink_setSdByte (s : State) (i : Nat) (b : Byte) : (s.setSdByte i b).sink = s.sink := rfl
@[simp] theorem State.pending_setSdByte (s : State) (i : Nat) (b : Byte) : (s.setSdByte i b).pending = s.pending := rfl

@[simp] theorem State.params_setPending (s : State) (items : List Item) : (s.setPending items).params = s.params := rfl
@[simp] theorem State.seCnt_setPending (s : State) (items : List Item) : (s.setPending items).seCnt = s.seCnt := rfl
@[simp] theorem State.seBuf_setPending (s : State) (items : List Item) : (s.setPending items).seBuf = s.seBuf := rfl
@[simp] theorem State.sdCode_setPending (s : State) (items : List Item) : (s.setPending items).sdCode = s.sdCode := rfl
@[simp] theorem State.sdSize_setPending (s : State) (items : List Item) : (s.setPending items).sdSize = s.sdSize := rfl
@[simp] theorem State.sdBuf_setPending (s : State) (items : List Item) : (s.setPending items).sdBuf = s.sdBuf := rfl
@[simp] theorem State.ret_setPending (s : State) (items : List Item) : (s.setPending items).ret = s.ret := rfl
@[simp] theorem State.mem_setPending (s : State) (items : List Item) : (s.setPending items).mem = s.mem := rfl
@[simp] theorem State.sink_setPending (s : State) (items : List Item) : (s.setPending items).sink = s.sink := rfl
@[simp] theorem State.pending_setPending (s : State) (items : List Item) : (s.setPending items).pending = items := rfl

end Sys2Proof.Machine
end

