-- ==== Sys2Proof/Laws/Commands.lean ====
section
/-! SUPPORT. One lemma per shared operation of the commands, saying all it can do: the two bulk command shapes and their refusals,
the position test of the wire rows, the two buffers, and the flush and finalize actions. -/

namespace Sys2Proof.Machine

/-! ### The bulk command shapes -/

/-- A sink-mode command goes on exactly when it is not refused, and then only emits and returns (R113, R134). -/
theorem sinkCommand_next {refusal : Option Refusal} {es : List Emission} {r : Nat} {s t : State} :
    sinkCommand refusal es r s = .next t ↔ refusal = none ∧ t = (s.emit es).setRet r := by
  cases refusal <;> simp [sinkCommand, eq_comm]

theorem sinkCommand_refused {refusal : Option Refusal} {es : List Emission} {r : Nat} {s : State} {why : Refusal} :
    sinkCommand refusal es r s = .refused why ↔ refusal = some why := by
  cases refusal <;> simp [sinkCommand]

/-- A bounded-buffer command goes on exactly when it is not refused, and then only stores and returns (R114, R135). -/
theorem bufCommand_next {refusal : Option Refusal} {dst cap : Nat} {o : List Byte} {r : Nat} {s t : State} :
    bufCommand refusal dst cap o r s = .next t ↔
      refusal = none ∧ t = (s.setMem (s.mem.outBytes dst cap 0 o)).setRet r := by
  cases refusal <;> simp [bufCommand, eq_comm]

theorem bufCommand_refused {refusal : Option Refusal} {dst cap : Nat} {o : List Byte} {r : Nat} {s : State} {why : Refusal} :
    bufCommand refusal dst cap o r s = .refused why ↔ refusal = some why := by
  cases refusal <;> simp [bufCommand]

/-- When a sink-mode command is not refused (R9, R204). -/
theorem sinkRefusal_none {p : Params} {n bound : Nat} :
    sinkRefusal p n bound = none ↔ n < 2 ^ p.sizeW ∧ bound < 2 ^ p.sizeW := by
  simp [sinkRefusal, Params.isSize]

/-- When a bounded-buffer command is not refused (R9, R60, R204). -/
theorem bufRefusal_none {p : Params} {src n dst cap bound : Nat} :
    bufRefusal p src n dst cap bound = none ↔
      (n < 2 ^ p.sizeW ∧ cap < 2 ^ p.sizeW ∧ bound < 2 ^ p.sizeW) ∧ regionsShareByte src n dst cap = false := by
  by_cases h : regionsShareByte src n dst cap = true <;> simp [bufRefusal, Params.isSize, h, and_assoc]
  split <;> simp

/-- The overlap test is the statement that no byte is shared (R60). -/
theorem regionsShareByte_eq_false {src n dst cap : Nat} : regionsShareByte src n dst cap = false ↔ disjoint src n dst cap := by
  constructor
  · intro h j k hj hk heq
    simp [regionsShareByte] at h
    omega
  · intro h
    by_contra hne
    simp [regionsShareByte] at hne
    have hn : 0 < n := by omega
    have hc : 0 < cap := by omega
    by_cases hle : src ≤ dst
    · exact h (dst - src) 0 (by omega) hc (by omega)
    · exact h 0 (src - dst) hn (by omega) (by omega)

/-! ### The wire rows -/

/-- A wire row goes on exactly at its position (R88). -/
theorem atPosition_next {pos : Position} {e s t : State} : atPosition pos e s = .next t ↔ s.position = pos ∧ t = e := by
  unfold atPosition
  split <;> simp_all [eq_comm]

/-- SD is at a code position exactly when it is not inside a block (R88, R171). -/
theorem position_code {s : State} : s.position = .code ↔ s.sdCode = 0x00#8 ∨ s.sdSize = s.sdCode.toNat - 1 := by
  unfold State.position
  split <;> simp_all

/-! ### The two buffers and the invariant -/

/-- A byte stored at the count is the last of the bytes counted then. -/
theorem take_setIfInBounds (v : Vector Byte 254) {n : Nat} (b : Byte) (h : n < 254) :
    (v.setIfInBounds n b).toList.take (n + 1) = v.toList.take n ++ [b] := by
  have hl : (v.setIfInBounds n b).toList = v.toList.set n b := by simp
  rw [hl, List.take_add_one, List.take_set, List.set_eq_of_length_le (by simp)]
  simp [h]

/-- All 254 bytes of a buffer (R30, R34). -/
theorem take_full (v : Vector Byte 254) : v.toList.take 254 = v.toList :=
  List.take_of_length_le (by simp)

theorem State.seOk_iff {s : State} : s.seOk = true ↔ s.seCnt ≤ 254 ∧ ∀ v ∈ s.seData, v ≠ delim := by
  simp only [State.seOk, Bool.and_eq_true, decide_eq_true_eq, List.all_eq_true, bne_iff_ne]
  rfl

theorem State.sdOk_iff {s : State} :
    s.sdOk = true ↔
      ((s.sdCode = 0x00#8 → s.sdSize = 0) ∧ (s.sdCode ≠ 0x00#8 → s.sdSize ≤ s.sdCode.toNat - 1)) ∧
        ∀ v ∈ s.sdData, v ≠ delim := by
  simp only [State.sdOk, Bool.and_eq_true, List.all_eq_true, bne_iff_ne]
  apply and_congr_left
  intro _
  split <;> simp_all

theorem State.length_seData {s : State} (h : s.seCnt ≤ 254) : s.seData.length = s.seCnt := by
  simp [State.seData, h]

theorem State.sdSize_le {s : State} (h : s.sdOk = true) : s.sdSize ≤ 254 := by
  obtain ⟨⟨h0, h1⟩, -⟩ := State.sdOk_iff.1 h
  by_cases hc : s.sdCode = 0x00#8
  · have := h0 hc
    omega
  · have := h1 hc
    have := s.sdCode.isLt
    omega

theorem State.length_sdData {s : State} (h : s.sdOk = true) : s.sdData.length = s.sdSize := by
  simp [State.sdData, State.sdSize_le h]

/-! ### The internal actions -/

@[simp] theorem sink_seFlush (s : State) : (seFlush s).sink = s.sink ++ [.encode .se (s.seCode :: s.seData)] := rfl
@[simp] theorem seCnt_seFlush (s : State) : (seFlush s).seCnt = 0 := rfl

@[simp] theorem sink_sdFinalize (s : State) :
    (sdFinalize s).sink = s.sink ++ [.decode .sd s.sdData (sdLeft s.sdCode s.sdSize) false] := rfl
@[simp] theorem sdCode_sdFinalize (s : State) : (sdFinalize s).sdCode = 0x00#8 := rfl
@[simp] theorem sdSize_sdFinalize (s : State) : (sdFinalize s).sdSize = 0 := rfl

@[simp] theorem sdCode_sdTakeCode (c : Byte) (s : State) : (sdTakeCode c s).sdCode = c := rfl
@[simp] theorem sdSize_sdTakeCode (c : Byte) (s : State) : (sdTakeCode c s).sdSize = 0 := rfl

@[simp] theorem sdCode_sdTakeData (b : Byte) (s : State) : (sdTakeData b s).sdCode = s.sdCode := rfl
@[simp] theorem sdSize_sdTakeData (b : Byte) (s : State) : (sdTakeData b s).sdSize = s.sdSize + 1 := rfl

/-- A data byte taken inside a block is the last of the bytes received then (R175). -/
theorem sdData_sdTakeData {b : Byte} {s : State} (h : s.sdSize < 254) : (sdTakeData b s).sdData = s.sdData ++ [b] :=
  take_setIfInBounds s.sdBuf b h

end Sys2Proof.Machine
end

