-- ==== Sys2Proof/Laws/Memory.lean ====
section
/-! SUPPORT. What the operations over host memory do: every one keeps the canonical form, a read after a write gives the written
byte at that address and the old byte at every other (`20_memory.md` R53), and the per-byte output writes exactly the offsets
below the capacity and the output's length (R55, R56). -/

namespace Sys2Proof.Machine

/-- A list canonical from `lo` is canonical from any lower bound. -/
theorem Memory.wfFrom_mono {lo lo' : Nat} (h : lo' ≤ lo) {m : Memory} (hm : Memory.wfFrom lo m = true) :
    Memory.wfFrom lo' m = true := by
  cases m with
  | nil => rfl
  | cons c rest =>
    obtain ⟨k, v⟩ := c
    simp only [Memory.wfFrom, Bool.and_eq_true, decide_eq_true_eq] at hm ⊢
    exact ⟨⟨by omega, hm.1.2⟩, hm.2⟩

/-- A canonical list has no entry below its bound. -/
theorem Memory.read_below {lo a : Nat} {m : Memory} (hm : Memory.wfFrom lo m = true) (ha : a < lo) :
    m.read a = Memory.absent := by
  induction m generalizing lo with
  | nil => rfl
  | cons c rest ih =>
    obtain ⟨k, v⟩ := c
    simp only [Memory.wfFrom, Bool.and_eq_true, decide_eq_true_eq] at hm
    have hk : k ≠ a := by omega
    simp only [Memory.read, hk, if_false]
    exact ih hm.2 (by omega)

/-- The cell written keeps the form when what follows lies above it. -/
theorem Memory.wfFrom_cell {lo a : Nat} {b : Byte} {rest : Memory} (hlo : lo ≤ a)
    (hr : Memory.wfFrom (a + 1) rest = true) : Memory.wfFrom lo (Memory.cell a b rest) = true := by
  unfold Memory.cell
  split
  · exact Memory.wfFrom_mono (by omega) hr
  · rename_i hb
    simp [Memory.wfFrom, hlo, hr, hb]

theorem Memory.wfFrom_write {lo a : Nat} {b : Byte} {m : Memory} (hlo : lo ≤ a) (hm : Memory.wfFrom lo m = true) :
    Memory.wfFrom lo (m.write a b) = true := by
  induction m generalizing lo with
  | nil => exact Memory.wfFrom_cell hlo rfl
  | cons c rest ih =>
    obtain ⟨k, v⟩ := c
    simp only [Memory.wfFrom, Bool.and_eq_true, decide_eq_true_eq] at hm
    obtain ⟨⟨hk, hv⟩, hr⟩ := hm
    simp only [Memory.write]
    split
    · rename_i h
      exact Memory.wfFrom_cell hlo (by simp [Memory.wfFrom, hv, hr]; omega)
    · split
      · rename_i h
        subst h
        exact Memory.wfFrom_cell hlo hr
      · simp only [Memory.wfFrom, Bool.and_eq_true, decide_eq_true_eq]
        exact ⟨⟨hk, hv⟩, ih (by omega) hr⟩

/-- A store keeps the canonical form. -/
theorem Memory.wf_write {a : Nat} {b : Byte} {m : Memory} (hm : m.wf = true) : (m.write a b).wf = true :=
  Memory.wfFrom_write (Nat.zero_le a) hm

/-- Reset's memory has the canonical form. -/
theorem Memory.wf_nil : Memory.wf [] = true := rfl

theorem Memory.read_cell_same {lo a : Nat} {b : Byte} {rest : Memory} (hr : Memory.wfFrom lo rest = true) (h : a < lo) :
    (Memory.cell a b rest).read a = b := by
  unfold Memory.cell
  split
  · rename_i hb
    rw [Memory.read_below hr h, hb]
  · simp [Memory.read]

theorem Memory.read_cell_ne {a x : Nat} {b : Byte} {rest : Memory} (h : x ≠ a) :
    (Memory.cell a b rest).read x = rest.read x := by
  unfold Memory.cell
  split
  · rfl
  · simp [Memory.read, Ne.symm h]

theorem Memory.read_write_same_from {lo a : Nat} {b : Byte} {m : Memory} (hm : Memory.wfFrom lo m = true) :
    (m.write a b).read a = b := by
  induction m generalizing lo with
  | nil => exact Memory.read_cell_same (lo := a + 1) rfl (by omega)
  | cons c rest ih =>
    obtain ⟨k, v⟩ := c
    have hm' := hm
    simp only [Memory.wfFrom, Bool.and_eq_true, decide_eq_true_eq] at hm
    obtain ⟨⟨hk, hv⟩, hr⟩ := hm
    simp only [Memory.write]
    split
    · rename_i h
      exact Memory.read_cell_same (lo := k) (by simp [Memory.wfFrom, hv, hr]) h
    · split
      · rename_i h
        subst h
        exact Memory.read_cell_same hr (by omega)
      · rename_i h
        simp only [Memory.read, Ne.symm h, if_false]
        exact ih hr

/-- A read after a store to the same address gives the byte stored (R53). -/
theorem Memory.read_write_same {a : Nat} {b : Byte} {m : Memory} (hm : m.wf = true) : (m.write a b).read a = b :=
  Memory.read_write_same_from hm

/-- A store changes no other address (R53). -/
theorem Memory.read_write_ne {a x : Nat} {b : Byte} {m : Memory} (h : x ≠ a) : (m.write a b).read x = m.read x := by
  induction m with
  | nil => exact Memory.read_cell_ne h
  | cons c rest ih =>
    obtain ⟨k, v⟩ := c
    simp only [Memory.write]
    split
    · exact Memory.read_cell_ne h
    · split
      · rename_i hk
        subst hk
        rw [Memory.read_cell_ne h]
        simp [Memory.read, Ne.symm h]
      · simp only [Memory.read, ih]

/-- The span of a space has the space's length. -/
@[simp] theorem Memory.length_span (m : Memory) (a n : Nat) : (m.span a n).length = n := by
  induction n generalizing a with
  | zero => rfl
  | succ n ih => simp [Memory.span, ih]

/-- Byte `k` of a span is the byte at offset `k` of its base (R59). -/
theorem Memory.getElem_span (m : Memory) (a n k : Nat) (h : k < (m.span a n).length) :
    (m.span a n)[k] = m.read (a + k) := by
  induction n generalizing a k with
  | zero => simp at h
  | succ n ih =>
    cases k with
    | zero => rfl
    | succ k =>
      simp only [Memory.span, List.getElem_cons_succ]
      rw [ih]
      congr 1
      omega

/-- Two memories that agree on a space have the same span there (R54). -/
theorem Memory.span_congr {m m' : Memory} {a n : Nat} (h : ∀ k, k < n → m.read (a + k) = m'.read (a + k)) :
    m.span a n = m'.span a n := by
  apply List.ext_getElem
  · simp
  · intro k h1 h2
    rw [Memory.getElem_span, Memory.getElem_span]
    exact h k (by simpa using h1)

/-- A span cut in two. -/
theorem Memory.span_append (m : Memory) (a n k : Nat) : m.span a (n + k) = m.span a n ++ m.span (a + n) k := by
  induction n generalizing a with
  | zero => simp [Memory.span]
  | succ n ih =>
    have : a + (n + 1) = a + 1 + n := by omega
    rw [Nat.succ_add, Memory.span, Memory.span, ih, this]
    rfl

/-- The output keeps the canonical form. -/
theorem Memory.wf_outBytes {m : Memory} (hm : m.wf = true) (dst cap total : Nat) (o : List Byte) :
    (m.outBytes dst cap total o).wf = true := by
  induction o generalizing m total with
  | nil => exact hm
  | cons v vs ih =>
    simp only [Memory.outBytes]
    apply ih
    split
    · exact Memory.wf_write hm
    · exact hm

/-- The output changes no address outside the offsets it stores to (R55, R56). -/
theorem Memory.read_outBytes_outside (m : Memory) (dst cap total a : Nat) (o : List Byte)
    (h : a < dst + total ∨ dst + min cap (total + o.length) ≤ a) :
    (m.outBytes dst cap total o).read a = m.read a := by
  induction o generalizing m total with
  | nil => rfl
  | cons v vs ih =>
    simp only [Memory.outBytes]
    rw [ih]
    · split
      · apply Memory.read_write_ne
        simp only [List.length_cons] at h
        omega
      · rfl
    · simp only [List.length_cons] at h
      omega

/-- Byte `k` of the output is at offset `total + k` of `DST` when that offset lies below the capacity (R55, R56). -/
theorem Memory.read_outBytes_inside {m : Memory} (hm : m.wf = true) (dst cap total k : Nat) (o : List Byte)
    (hk : k < o.length) (hc : total + k < cap) : (m.outBytes dst cap total o).read (dst + (total + k)) = o[k] := by
  induction o generalizing m total k with
  | nil => simp at hk
  | cons v vs ih =>
    simp only [Memory.outBytes]
    cases k with
    | zero =>
      have ht : total < cap := by omega
      rw [Memory.read_outBytes_outside _ _ _ _ _ _ (by omega), if_pos ht]
      exact Memory.read_write_same hm
    | succ k =>
      have hi : total + (k + 1) = total + 1 + k := by omega
      rw [hi]
      refine ih (m := if total < cap then m.write (dst + total) v else m) ?_ (total + 1) k ?_ (by omega)
      · split
        · exact Memory.wf_write hm
        · exact hm

end Sys2Proof.Machine
end

