-- ==== Sys2Proof/Laws/Parse.lean ====
section
/-! SUPPORT. What the parse of the bulk decoder does (`41_bulk_decoder.md` R131 to R133): every input is a list of blocks as long
as their codes say, followed by one of the three endings of R133; on such an input the parse puts out the blocks' data with
the implied zeros of R132 and reaches that ending. -/

namespace Sys2Proof.Machine

/-- What the parse puts out for these blocks when the flag has this value before the first of them. -/
def bdOutsAfter (prevFull : Bool) : List Block → List BdOut
  | [] => []
  | b :: bs => (if prevFull then [] else [.zero]) ++ [.span b.data] ++ bdOutsAfter (prevFullAfter b.code) bs

/-- The ending the parse reports. -/
def endOf : FrameEnd → BdEnd
  | .delimiter _ => .delimiter
  | .exhausted => .exhausted
  | .truncated code present => .truncated (code.toNat - 1 - present.length)

theorem Block.sized_iff {b : Block} : b.sized = true ↔ b.data.length + 1 = b.code.toNat := by
  simp [Block.sized]

@[simp] theorem prevFullAfter_full : prevFullAfter codeFull = true := rfl

theorem need_of_sized {b : Block} (h : b.sized = true) : need b.code = b.data.length := by
  have := Block.sized_iff.1 h
  simp only [need]
  omega

theorem classify_of_pos {c : Byte} (h : 0 < c.toNat) : classify c = .full ∨ classify c = .run := by
  have hc : c ≠ delim := by
    rintro rfl
    simp [delim] at h
  simp only [classify, hc, if_false]
  split
  · exact .inl rfl
  · exact .inr rfl

/-- Every input is blocks followed by one of the three endings (R133). -/
theorem blocks_then_end (f : List Byte) :
    ∃ bs e, (∀ b ∈ bs, b.sized = true) ∧ FrameEnd.valid e = true ∧ f = wireBytes bs ++ e.bytes := by
  induction h : f.length using Nat.strongRecOn generalizing f with
  | ind n ih =>
    cases f with
    | nil => exact ⟨[], .exhausted, by simp, rfl, rfl⟩
    | cons c rest =>
      by_cases hz : c = delim
      · exact ⟨[], .delimiter rest, by simp, rfl, by simp [wireBytes, FrameEnd.bytes, hz]⟩
      · have hpos : 0 < c.toNat := by
          rcases Nat.eq_zero_or_pos c.toNat with h0 | h0
          · exact absurd (BitVec.eq_of_toNat_eq (by simpa [delim] using h0)) hz
          · exact h0
        by_cases ht : rest.length + 1 < c.toNat
        · exact ⟨[], .truncated c rest, by simp, by simpa [FrameEnd.valid] using ht, rfl⟩
        · obtain ⟨bs, e, hbs, he, hf⟩ := ih (rest.drop (c.toNat - 1)).length
            (by simp only [List.length_cons] at h; simp; omega) (rest.drop (c.toNat - 1)) rfl
          refine ⟨{ code := c, data := rest.take (c.toNat - 1) } :: bs, e, ?_, he, ?_⟩
          · intro b hb
            rcases List.mem_cons.1 hb with rfl | hb
            · simp only [Block.sized, List.length_take, beq_iff_eq]
              omega
            · exact hbs b hb
          · have : wireBytes ({ code := c, data := rest.take (c.toNat - 1) } :: bs) ++ e.bytes
                = c :: (rest.take (c.toNat - 1) ++ (wireBytes bs ++ e.bytes)) := by
              simp [wireBytes, blockBytes]
            rw [this, ← hf, List.take_append_drop]

/-- Where the input continues with a complete block, one turn of the loop reads it. -/
theorem bdLoop_block {f pre post : List Byte} {b : Block} {w : BdWork} {fuel : Nat} (hb : b.sized = true)
    (hf : f = pre ++ (blockBytes b ++ post)) (hi : w.i = pre.length) :
    bdLoop f (fuel + 1) w = bdLoop f fuel
      { i := (pre ++ blockBytes b).length
        total := w.total + (if w.prevFull then 0 else 1) + b.data.length
        prevFull := prevFullAfter b.code
        out := w.out ++ ((if w.prevFull then [] else [.zero]) ++ [.span b.data]) } := by
  have hsz := Block.sized_iff.1 hb
  have hlt : w.i < f.length := by simp [hf, hi, blockBytes]
  have hc : f.getD w.i delim = b.code := by simp [hf, hi, blockBytes, List.getD]
  have havail : ¬ f.length - (w.i + 1) < need b.code := by
    simp only [hf, hi, need_of_sized hb, blockBytes, List.length_append, List.length_cons]
    omega
  have hslice : slice f (w.i + 1) (need b.code) = b.data := by
    have : f = (pre ++ [b.code]) ++ (b.data ++ post) := by simp [hf, blockBytes]
    have hl : w.i + 1 = (pre ++ [b.code]).length := by simp [hi]
    rw [slice, hl, this, List.drop_left, need_of_sized hb, List.take_left]
  have hblock : bdBlock f b.code { w with i := w.i + 1 } =
      { i := (pre ++ blockBytes b).length
        total := w.total + (if w.prevFull then 0 else 1) + b.data.length
        prevFull := prevFullAfter b.code
        out := w.out ++ ((if w.prevFull then [] else [.zero]) ++ [.span b.data]) } := by
    have hl : w.i + 1 + b.data.length = (pre ++ blockBytes b).length := by
      simp only [hi, blockBytes, List.length_append, List.length_cons]
      omega
    rw [need_of_sized hb] at hslice
    cases w.prevFull <;>
      simp [bdBlock, bdImpliedZero, hslice, need_of_sized hb, ← hl]
  rw [bdLoop, if_pos hlt]
  rcases classify_of_pos (c := b.code) (by omega) with h | h <;>
    simp only [hc, h, if_neg havail, hblock]

/-- Where the input continues with an ending, the next turn reaches it. -/
theorem bdLoop_end {f pre : List Byte} {e : FrameEnd} {w : BdWork} {fuel : Nat} (he : e.valid = true)
    (hf : f = pre ++ e.bytes) (hi : w.i = pre.length) :
    (bdLoop f (fuel + 1) w).1.out = w.out ∧ (bdLoop f (fuel + 1) w).1.total = w.total ∧
      (bdLoop f (fuel + 1) w).2 = endOf e := by
  cases e with
  | delimiter after =>
    have hlt : w.i < f.length := by simp [hf, hi, FrameEnd.bytes]
    have hc : f.getD w.i delim = delim := by simp [hf, hi, FrameEnd.bytes, List.getD]
    have hd : classify delim = .delim := by simp [classify]
    simp only [bdLoop, if_pos hlt, hc, hd, endOf, true_and]
  | exhausted =>
    have hlt : ¬ w.i < f.length := by simp [hf, hi, FrameEnd.bytes]
    simp [bdLoop, hlt, endOf]
  | truncated c present =>
    have hv : present.length + 1 < c.toNat := by simpa [FrameEnd.valid] using he
    have hlt : w.i < f.length := by simp [hf, hi, FrameEnd.bytes]
    have hc : f.getD w.i delim = c := by simp [hf, hi, FrameEnd.bytes, List.getD]
    have ha : f.length - (w.i + 1) = present.length := by simp [hf, hi, FrameEnd.bytes]; omega
    have hn : present.length < c.toNat - 1 := by omega
    rw [bdLoop, if_pos hlt]
    rcases classify_of_pos (c := c) (by omega) with h | h <;>
      simp only [hc, h, ha, need, if_pos hn, endOf, bdMissing, true_and]

/-- The loop on blocks followed by an ending. -/
theorem bdLoop_spec {f : List Byte} (bs : List Block) {e : FrameEnd} {pre : List Byte} {w : BdWork} {fuel : Nat}
    (hbs : ∀ b ∈ bs, b.sized = true) (he : e.valid = true) (hf : f = pre ++ (wireBytes bs ++ e.bytes)) (hi : w.i = pre.length)
    (hfuel : bs.length < fuel) :
    (bdLoop f fuel w).1.out = w.out ++ bdOutsAfter w.prevFull bs ∧
      (bdLoop f fuel w).1.total = w.total + ((bdOutsAfter w.prevFull bs).flatMap bdOutBytes).length ∧
      (bdLoop f fuel w).2 = endOf e := by
  induction bs generalizing pre w fuel with
  | nil =>
    obtain ⟨fuel, rfl⟩ : ∃ k, fuel = k + 1 := ⟨fuel - 1, by simp at hfuel; omega⟩
    have h := bdLoop_end (fuel := fuel) he (by simpa [wireBytes] using hf) hi
    simpa [bdOutsAfter] using h
  | cons b bs ih =>
    obtain ⟨fuel, rfl⟩ : ∃ k, fuel = k + 1 := ⟨fuel - 1, by simp at hfuel; omega⟩
    have hb := hbs b (by simp)
    have hf' : f = pre ++ (blockBytes b ++ (wireBytes bs ++ e.bytes)) := by simpa [wireBytes] using hf
    rw [bdLoop_block hb hf' hi]
    obtain ⟨h1, h2, h3⟩ := ih (fun x hx => hbs x (by simp [hx])) (pre := pre ++ blockBytes b)
      (w := { i := (pre ++ blockBytes b).length, total := w.total + (if w.prevFull then 0 else 1) + b.data.length,
              prevFull := prevFullAfter b.code, out := w.out ++ ((if w.prevFull then [] else [.zero]) ++ [.span b.data]) })
      (fuel := fuel) (by simpa using hf') rfl (by simpa using hfuel)
    refine ⟨?_, ?_, h3⟩
    · rw [h1]; simp [bdOutsAfter]
    · rw [h2]
      cases w.prevFull <;> simp [bdOutsAfter, bdOutBytes] <;> omega

theorem length_lt_wireBytes (bs : List Block) : bs.length ≤ (wireBytes bs).length := by
  induction bs with
  | nil => simp
  | cons b bs ih => simp only [wireBytes, blockBytes, List.flatMap_cons, List.length_append, List.length_cons] at *; omega

/-- The parse of blocks followed by an ending. -/
theorem bdParse_spec (bs : List Block) (e : FrameEnd) (hbs : ∀ b ∈ bs, b.sized = true) (he : e.valid = true) :
    (bdParse (wireBytes bs ++ e.bytes)).1.out = bdOutsAfter true bs ∧
      (bdParse (wireBytes bs ++ e.bytes)).1.total = ((bdOutsAfter true bs).flatMap bdOutBytes).length ∧
      (bdParse (wireBytes bs ++ e.bytes)).2 = endOf e := by
  have hl := length_lt_wireBytes bs
  have h := bdLoop_spec (f := wireBytes bs ++ e.bytes) bs (e := e) (pre := []) (w := bdInit)
    (fuel := (wireBytes bs ++ e.bytes).length + 1) hbs he (by simp) rfl (by simp; omega)
  simpa [bdParse, bdInit, prevFullInit] using h

/-- The decoded bytes are the payload of the blocks, after an implied zero where one precedes the first (R84, R132). -/
theorem bdOutsAfter_bytes (prevFull : Bool) (b : Block) (bs : List Block) :
    (bdOutsAfter prevFull (b :: bs)).flatMap bdOutBytes = (if prevFull then [] else [delim]) ++ payloadOf (b :: bs) := by
  induction bs generalizing prevFull b with
  | nil => cases prevFull <;> simp [bdOutsAfter, bdOutBytes, payloadOf]
  | cons c cs ih =>
    rw [bdOutsAfter, List.flatMap_append, ih, payloadOf]
    have hfull : prevFullAfter b.code = decide (b.code = codeFull) := by simp [prevFullAfter, beq_eq_decide]
    cases prevFull <;> by_cases hb : b.code = codeFull <;> simp [hfull, hb, bdOutBytes]

/-- The decoded bytes of a whole list of blocks (R84). -/
theorem bdOutsAfter_payload (bs : List Block) : (bdOutsAfter true bs).flatMap bdOutBytes = payloadOf bs := by
  cases bs with
  | nil => rfl
  | cons b bs => simpa using bdOutsAfter_bytes true b bs

/-- The emissions are the runs of R134 and R141. -/
theorem bdOutsAfter_emissions (prev : Byte) (bs : List Block) :
    (bdOutsAfter (prevFullAfter prev) bs).flatMap bdOutEmissions
      = (bdRunsAfter prev bs).map (fun r => Emission.decode .bd r 0 false) := by
  induction bs generalizing prev with
  | nil => rfl
  | cons b bs ih =>
    rw [bdOutsAfter, List.flatMap_append, ih, bdRunsAfter]
    have hfull : prevFullAfter prev = decide (prev = codeFull) := by simp [prevFullAfter, beq_eq_decide]
    have hdata : ∀ d : List Byte, bdOutEmissions (.span d) = if d = [] then [] else [.decode .bd d 0 false] := by
      intro d; cases d <;> rfl
    have hzero : bdOutEmissions .zero = [.decode .bd [delim] 0 false] := rfl
    by_cases hp : prev = codeFull <;> by_cases hd : b.data = [] <;>
      simp [hfull, hp, hdata, hd, hzero]

/-- The result of a parse (R131, R133, R137). -/
theorem bdRet_parse (bs : List Block) (e : FrameEnd) (hbs : ∀ b ∈ bs, b.sized = true) (he : e.valid = true) :
    bdRet (bdParse (wireBytes bs ++ e.bytes)).1 (bdParse (wireBytes bs ++ e.bytes)).2 = e.ret bs := by
  obtain ⟨-, h2, h3⟩ := bdParse_spec bs e hbs he
  rw [bdOutsAfter_payload] at h2
  cases e <;> simp [h3, endOf, bdRet, FrameEnd.ret, h2]

/-- The decoded bytes of a parse (R130). -/
theorem bdOutput_parse (bs : List Block) (e : FrameEnd) (hbs : ∀ b ∈ bs, b.sized = true) (he : e.valid = true) :
    bdOutput (bdParse (wireBytes bs ++ e.bytes)).1 = payloadOf bs := by
  rw [bdOutput, (bdParse_spec bs e hbs he).1, bdOutsAfter_payload]

/-- The emissions of a parse in sink mode (R134, R136). -/
theorem bdEmissions_parse (bs : List Block) (e : FrameEnd) (hbs : ∀ b ∈ bs, b.sized = true) (he : e.valid = true) :
    (bdParse (wireBytes bs ++ e.bytes)).1.out.flatMap bdOutEmissions ++ bdEndEmissions (bdParse (wireBytes bs ++ e.bytes)).2
      = (bdRuns bs).map (fun r => Emission.decode .bd r 0 false) ++ e.report := by
  obtain ⟨h1, -, h3⟩ := bdParse_spec bs e hbs he
  have h := bdOutsAfter_emissions codeFull bs
  rw [show prevFullAfter codeFull = true from rfl] at h
  rw [h1, h3, h, bdRuns]
  cases e <;> rfl

end Sys2Proof.Machine
end

