-- ==== Sys2Proof/Laws/PerInstr.lean ====
section
/-! SUPPORT. One family of statements about every instruction as syntax, with one lemma per constructor: the shape of its encoding.
A command is an opcode byte and the operands of its format (R91, R92); a row of the wire space is one byte (R82, R88). -/

namespace Sys2Proof.Laws

/-- The shape of an encoding: either an opcode byte that R92 assigns and as many items as its format has, or one wire byte. -/
def EncodingShape.Statement (i : Instr) : Prop :=
  (∃ c operands, encode i = .byte (Command.opcode c) :: operands ∧ commandOf c.opcode = some c ∧
    (encode i).length = c.format.items) ∨
  ∃ b, encode i = [.wire b]

theorem EncodingShape.beEncSink (src n : Nat) : EncodingShape.Statement (.beEncSink src n) :=
  .inl ⟨.beEncSink, _, rfl, rfl, rfl⟩

theorem EncodingShape.beEncBuf (src n dst cap : Nat) : EncodingShape.Statement (.beEncBuf src n dst cap) :=
  .inl ⟨.beEncBuf, _, rfl, rfl, rfl⟩

theorem EncodingShape.bdDecSink (src n : Nat) : EncodingShape.Statement (.bdDecSink src n) :=
  .inl ⟨.bdDecSink, _, rfl, rfl, rfl⟩

theorem EncodingShape.bdDecBuf (src n dst cap : Nat) : EncodingShape.Statement (.bdDecBuf src n dst cap) :=
  .inl ⟨.bdDecBuf, _, rfl, rfl, rfl⟩

theorem EncodingShape.seReset : EncodingShape.Statement .seReset := .inl ⟨.seReset, _, rfl, rfl, rfl⟩

theorem EncodingShape.seSink (b : Byte) : EncodingShape.Statement (.seSink b) := .inl ⟨.seSink, _, rfl, rfl, rfl⟩

theorem EncodingShape.seStop : EncodingShape.Statement .seStop := .inl ⟨.seStop, _, rfl, rfl, rfl⟩

theorem EncodingShape.sdReset : EncodingShape.Statement .sdReset := .inl ⟨.sdReset, _, rfl, rfl, rfl⟩

theorem EncodingShape.sdSink (b : Byte) : EncodingShape.Statement (.sdSink b) := .inl ⟨.sdSink, _, rfl, rfl, rfl⟩

theorem EncodingShape.sdStop : EncodingShape.Statement .sdStop := .inl ⟨.sdStop, _, rfl, rfl, rfl⟩

theorem EncodingShape.wDelim : EncodingShape.Statement .wDelim := .inr ⟨_, rfl⟩

theorem EncodingShape.wFull : EncodingShape.Statement .wFull := .inr ⟨_, rfl⟩

theorem EncodingShape.wRun (code : Byte) : EncodingShape.Statement (.wRun code) := .inr ⟨_, rfl⟩

theorem EncodingShape.wData (data : Byte) : EncodingShape.Statement (.wData data) := .inr ⟨_, rfl⟩

end Sys2Proof.Laws
end

