-- ==== Sys2Proof/Laws/Scan.lean ====
section
/-! SUPPORT. What the scan of the bulk encoder does (`40_bulk_encoder.md` R111, R112, R115): the working quantities stay as R26
says, and the index-based scan flushes the blocks of the index-free `encBlocks`. -/

namespace Sys2Proof.Machine

/-- What is true of the working quantities each time the scan is about to examine the byte at `i` (R25, R26, R112). -/
structure BeWork.Ok (payload : List Byte) (w : BeWork) : Prop where
  code_pos : 1 ≤ w.code
  code_le : w.code ≤ 255
  span : w.start + (w.code - 1) = w.i
  i_le : w.i ≤ payload.length
  total_eq : w.total = (wireBytes w.flushed).length

/-- The data of the pending block. -/
def pendingData (payload : List Byte) (w : BeWork) : List Byte := slice payload w.start (w.code - 1)

theorem length_pendingData {payload : List Byte} {w : BeWork} (h : w.Ok payload) :
    (pendingData payload w).length = w.code - 1 := by
  have h1 := h.span
  have h2 := h.i_le
  simp only [pendingData, slice, List.length_take, List.length_drop]
  omega

theorem slice_succ {payload : List Byte} {a k : Nat} (h : a + k < payload.length) :
    slice payload a (k + 1) = slice payload a k ++ [payload[a + k]] := by
  have hk : k < (payload.drop a).length := by simp; omega
  rw [slice, List.take_add_one, slice, List.getElem?_eq_getElem hk]
  simp

theorem wireBytes_append (bs cs : List Block) : wireBytes (bs ++ cs) = wireBytes bs ++ wireBytes cs := by
  simp [wireBytes]

theorem blockOf_pending {payload : List Byte} {w : BeWork} (h : w.Ok payload) :
    ({ code := BitVec.ofNat 8 w.code, data := slice payload w.start (w.code - 1) } : Block)
      = blockOf (pendingData payload w) := by
  have h1 := length_pendingData h
  have h2 := h.code_pos
  have h3 : w.code = w.code - 1 + 1 := by omega
  rw [blockOf, h1, ← h3]
  rfl

theorem beFlush_flushed {payload : List Byte} {w : BeWork} (h : w.Ok payload) :
    (beFlush payload w).flushed = w.flushed ++ [blockOf (pendingData payload w)] := by
  simp only [beFlush, blockOf_pending h]

theorem beFlush_total {payload : List Byte} {w : BeWork} (h : w.Ok payload) :
    (beFlush payload w).total = (wireBytes (beFlush payload w).flushed).length := by
  have h1 := length_pendingData h
  have h2 := h.code_pos
  rw [beFlush_flushed h, wireBytes_append, List.length_append, ← h.total_eq]
  simp only [beFlush, wireBytes, blockBytes, blockOf, List.flatMap_cons, List.flatMap_nil, List.append_nil, List.length_cons, h1]
  omega

/-- A flush that restarts the block at `a`, the position of the next byte, keeps the working quantities in order. -/
theorem BeWork.Ok.restart {payload : List Byte} {w : BeWork} (h : w.Ok payload) (a : Nat) (ha : a ≤ payload.length) :
    BeWork.Ok payload { beFlush payload w with code := 1, start := a, i := a } where
  code_pos := le_refl 1
  code_le := by simp
  span := by simp
  i_le := ha
  total_eq := beFlush_total h

/-- One turn of the scan's loop keeps the working quantities in order and moves one byte on. -/
theorem beByte_ok {payload : List Byte} {w : BeWork} (h : w.Ok payload) (hi : w.i < payload.length) :
    (beByte payload w payload[w.i]).Ok payload ∧ (beByte payload w payload[w.i]).i = w.i + 1 := by
  have hfull : (beFlushFull payload w).Ok payload ∧ (beFlushFull payload w).i = w.i ∧ (beFlushFull payload w).code ≠ 255 := by
    unfold beFlushFull
    split
    · exact ⟨h.restart w.i h.i_le, rfl, by simp⟩
    · rename_i hc
      exact ⟨h, rfl, by simpa [codeFull] using hc⟩
  obtain ⟨hok, hwi, hne⟩ := hfull
  unfold beByte beTake
  split
  · refine ⟨?_, by simp [beFlush, hwi]⟩
    have := hok.restart (w.i + 1) (by omega)
    simpa [beFlush, hwi] using this
  · refine ⟨?_, by simp [hwi]⟩
    have h1 := hok.code_le
    have h2 := hok.code_pos
    have h3 := hok.span
    constructor
    · simp
    · simp only; omega
    · simp only; omega
    · simp only [hwi]; omega
    · exact hok.total_eq

/-- The pending block after one turn, and the blocks the turn flushed, are those of one step of `encBlocksFrom`. -/
theorem beByte_blocks {payload : List Byte} {w : BeWork} (h : w.Ok payload) (hi : w.i < payload.length) (rest : List Byte) :
    (beByte payload w payload[w.i]).flushed ++ encBlocksFrom (pendingData payload (beByte payload w payload[w.i])) rest
      = w.flushed ++ encBlocksFrom (pendingData payload w) (payload[w.i] :: rest) := by
  have hlen := length_pendingData h
  have hpos := h.code_pos
  have hspan := h.span
  have hfl := beFlush_flushed h
  have hone : pendingData payload { w with code := w.code + 1, i := w.i + 1 } = pendingData payload w ++ [payload[w.i]] := by
    have e : w.code + 1 - 1 = (w.code - 1) + 1 := by omega
    simp only [pendingData, e]
    rw [slice_succ (by omega)]
    simp [hspan]
  by_cases hc : w.code = 255
  · have hfull : beFlushFull payload w = { beFlush payload w with code := 1, start := w.i } := by
      simp [beFlushFull, codeFull, hc]
    have hl : (pendingData payload w).length = maxData := by simp [hlen, hc, maxData]
    by_cases hz : payload[w.i] = delim
    · simp only [beByte, beTake, hfull, hz, if_true]
      simp only [encBlocksFrom, hl, if_true]
      rw [beFlush_flushed (w := { beFlush payload w with code := 1, start := w.i }) (h.restart w.i h.i_le)]
      simp [hfl, pendingData, slice]
    · have hs : slice payload w.i 1 = [payload[w.i]] := by
        have := slice_succ (payload := payload) (a := w.i) (k := 0) (by omega)
        simpa [slice] using this
      simp only [beByte, beTake, hfull, hz, if_false]
      simp only [encBlocksFrom, hl, if_true, hz, if_false]
      simp [hfl, pendingData, hs]
  · have hfull : beFlushFull payload w = w := by simp [beFlushFull, codeFull, hc]
    have hle := h.code_le
    have hl : (pendingData payload w).length ≠ maxData := by simp only [hlen, maxData]; omega
    by_cases hz : payload[w.i] = delim
    · simp only [beByte, beTake, hfull, hz, if_true]
      simp only [encBlocksFrom, hl, if_false, if_true]
      rw [hfl]
      simp [pendingData, slice]
    · simp only [beByte, beTake, hfull, hz, if_false]
      simp only [encBlocksFrom, hl, if_false, hz, hone]

/-- From any position in order, the rest of the scan and its final flush give the blocks of the rest of the payload. -/
theorem beScan_from {payload : List Byte} (rest : List Byte) {w : BeWork} (h : w.Ok payload) (hr : payload.drop w.i = rest) :
    (rest.foldl (beByte payload) w).Ok payload ∧
      (beFlush payload (rest.foldl (beByte payload) w)).flushed
        = w.flushed ++ encBlocksFrom (pendingData payload w) rest := by
  induction rest generalizing w with
  | nil => exact ⟨h, by simpa [encBlocksFrom] using beFlush_flushed h⟩
  | cons v vs ih =>
    have hi : w.i < payload.length := by
      by_contra hn
      rw [List.drop_eq_nil_of_le (by omega)] at hr
      simp at hr
    have hv : payload[w.i] = v ∧ payload.drop (w.i + 1) = vs := by
      rw [List.drop_eq_getElem_cons hi] at hr
      exact List.cons.inj hr
    obtain ⟨hok, hwi⟩ := beByte_ok h hi
    have hb := beByte_blocks h hi vs
    rw [hv.1] at hok hwi hb
    obtain ⟨h1, h2⟩ := ih hok (by rw [hwi]; exact hv.2)
    exact ⟨h1, by rw [List.foldl_cons, h2, hb]⟩

theorem beInit_ok (payload : List Byte) : beInit.Ok payload where
  code_pos := le_refl 1
  code_le := by simp [beInit]
  span := by simp [beInit]
  i_le := by simp [beInit]
  total_eq := by simp [beInit, wireBytes]

/-- The scan flushes the blocks of the payload (R110, R111, R115). -/
theorem beScan_flushed (payload : List Byte) : (beScan payload).flushed = encBlocks payload := by
  have h := (beScan_from payload (beInit_ok payload) (by simp [beInit])).2
  simpa [beScan, encBlocks, pendingData, slice, beInit] using h

/-- The scan's total is the length of the encoding (R112, R114). -/
theorem beScan_total (payload : List Byte) : (beScan payload).total = (enc payload).length := by
  have h := (beScan_from payload (beInit_ok payload) (by simp [beInit])).1
  have ht := beFlush_total h
  rw [enc, ← beScan_flushed]
  exact ht

/-- The bytes a BE command outputs are the encoding (R110). -/
theorem beOutput_beScan (payload : List Byte) : beOutput (beScan payload) = enc payload := by
  rw [beOutput, beScan_flushed]
  rfl

end Sys2Proof.Machine
end

