-- ==== Sys2Proof/Tests/Slice0.lean ====
section
/-! SUPPORT. The model's own tests. Expected values come from the encodings of `30_encoding.md`, the worked examples of the command
rules and the vectors of `95_test_vectors.md`; the last part shows, for every statement with hypotheses, values that meet them. -/

namespace Sys2Proof.Tests

open Sys2Proof.Machine

-- The buffers have 254 bytes, and `decide` compares them element by element.
set_option maxRecDepth 20000

/-! ### Helpers -/

/-- A machine whose memory holds the payload `[0x11, 0x22, 0x00, 0x33]` at 0 and the frame `[0x03, 0x11, 0x22, 0x02, 0x33, 0x00]`
at 16 (the worked examples of R113, R114, R134, R135), everything else as after reset. -/
def demo : State :=
  { State.reset with
    mem := [(0, 0x11#8), (1, 0x22#8), (3, 0x33#8), (16, 0x03#8), (17, 0x11#8), (18, 0x22#8), (19, 0x02#8), (20, 0x33#8)] }

/-- `demo` with the truncated frame `[0x02, 0x11, 0x05, 0x22]` of R140 at 32. -/
def demoTrunc : State := { demo with mem := [(32, 0x02#8), (33, 0x11#8), (34, 0x05#8), (35, 0x22#8)] }

/-- A machine with sizes of four bits. -/
def narrow : State := { demo with params := { sizeW := 4, addrW := 4 } }

/-- SE with `n` pending bytes `0x11`. -/
def sePending (n : Nat) : State := { State.reset with seCnt := n, seBuf := Vector.replicate 254 0x11#8 }

/-- SD inside or after a block with this code, `n` data bytes `0x11` received. -/
def sdAt (code : Byte) (n : Nat) : State :=
  { State.reset with sdCode := code, sdSize := n, sdBuf := Vector.replicate 254 0x11#8 }

/-- What a command emits and returns. -/
def outcome (i : Instr) (s : State) : Option (List Emission × Option Nat) := (nextOf (exec i s)).map fun t => (t.sink, t.ret)

/-- `SE.cnt` after a command, and what it emits. -/
def seOutcome (i : Instr) (s : State) : Option (List Emission × Nat) := (nextOf (exec i s)).map fun t => (t.sink, t.seCnt)

/-- `SD.code` and `SD.size` after a command, and what it emits. -/
def sdOutcome (i : Instr) (s : State) : Option (List Emission × Byte × Nat) :=
  (nextOf (exec i s)).map fun t => (t.sink, t.sdCode, t.sdSize)

/-- The outcome is a refusal for this reason. -/
def refusedWith (why : Refusal) : Host.Outcome State Fault Refusal → Bool
  | .next _ => false
  | .fault _ => false
  | .refused r => r == why

/-- A region that ends before another begins shares no byte with it. -/
theorem disjoint_of_le {a n b m : Nat} (h : a + n ≤ b) : disjoint a n b m := by
  intro j k hj hk
  omega

/-! ### WellFormed refuses an ill-formed term for each check (R82, R94) -/

theorem test_wf_base : Instr.wf resetParams (.beEncSink 4294967296 0) = false := by decide
theorem test_wf_size : Instr.wf resetParams (.bdDecSink 0 4294967296) = false := by decide
theorem test_wf_dst : Instr.wf resetParams (.beEncBuf 0 0 4294967296 0) = false := by decide
theorem test_wf_cap : Instr.wf resetParams (.bdDecBuf 0 0 0 4294967296) = false := by decide
theorem test_wf_run_delim : Instr.wf resetParams (.wRun 0x00#8) = false := by decide
theorem test_wf_run_full : Instr.wf resetParams (.wRun 0xFF#8) = false := by decide
theorem test_wf_limits : Instr.wf resetParams (.beEncBuf 4294967295 4294967295 4294967295 4294967295) = true := by decide

/-! ### Decoding words written out from R91, R92, R82 and R88 -/

theorem test_decode_be_sink :
    decode resetParams .code [.byte 0b00000000#8, .value 7, .value 3] = .ok (.beEncSink 7 3, []) := by decide
theorem test_decode_be_buf :
    decode resetParams .code [.byte 0b00000001#8, .value 7, .value 3, .value 9, .value 5] = .ok (.beEncBuf 7 3 9 5, []) := by decide
theorem test_decode_bd_sink :
    decode resetParams .code [.byte 0b00010000#8, .value 7, .value 3] = .ok (.bdDecSink 7 3, []) := by decide
theorem test_decode_bd_buf :
    decode resetParams .code [.byte 0b00010001#8, .value 7, .value 3, .value 9, .value 5] = .ok (.bdDecBuf 7 3 9 5, []) := by decide
theorem test_decode_se_reset : decode resetParams .code [.byte 0b00100000#8] = .ok (.seReset, []) := by decide
theorem test_decode_se_sink :
    decode resetParams .code [.byte 0b00100001#8, .byte 0b01000001#8] = .ok (.seSink 0x41#8, []) := by decide
theorem test_decode_se_stop : decode resetParams .code [.byte 0b00100010#8] = .ok (.seStop, []) := by decide
theorem test_decode_sd_reset : decode resetParams .code [.byte 0b00110000#8] = .ok (.sdReset, []) := by decide
theorem test_decode_sd_sink :
    decode resetParams .code [.byte 0b00110001#8, .byte 0b11111111#8] = .ok (.sdSink 0xFF#8, []) := by decide
theorem test_decode_sd_stop : decode resetParams .code [.byte 0b00110010#8] = .ok (.sdStop, []) := by decide
theorem test_decode_w_delim : decode resetParams .code [.wire 0b00000000#8] = .ok (.wDelim, []) := by decide
theorem test_decode_w_full : decode resetParams .code [.wire 0b11111111#8] = .ok (.wFull, []) := by decide
theorem test_decode_w_run_least : decode resetParams .code [.wire 0b00000001#8] = .ok (.wRun 0x01#8, []) := by decide
theorem test_decode_w_run_greatest : decode resetParams .code [.wire 0b11111110#8] = .ok (.wRun 0xFE#8, []) := by decide
theorem test_decode_w_data : decode resetParams .data [.wire 0b00000101#8] = .ok (.wData 0x05#8, []) := by decide
theorem test_decode_unassigned : decode resetParams .code [.byte 0b01000000#8] = .error (.unassignedOpcode 0x40#8) := by decide
theorem test_decode_operands_missing : decode resetParams .code [.byte 0b00100001#8] = .error (.operandsMissing .seSink) := by decide
theorem test_decode_operand_too_wide :
    decode resetParams .code [.byte 0b00000000#8, .value 4294967296, .value 3] = .error (.operandTooWide .beEncSink) := by decide

/-! ### Table words (log entry 6) -/

theorem test_table_word_s0 : decodeTableWord 8 0x20 = some .seReset := by decide
theorem test_table_word_s1 : decodeTableWord 16 0x4121 = some (.seSink 0x41#8) := by decide
theorem test_table_word_b : decodeTableWord 8 0x11 = some (.bdDecBuf 0 0 0 0) := by decide
theorem test_table_word_wire : decodeTableWord 8 0xFF = some .wFull := by decide
theorem test_table_word_runs :
    step (State.reset.withFetchWord 16 0x0031) = exec (.sdSink 0x00#8) State.reset := rfl

/-! ### One step of each instruction -/

theorem test_be_sink : outcome (.beEncSink 0 4) demo =
    some ([.encode .be [0x03#8], .encode .be [0x11#8, 0x22#8], .encode .be [0x02#8], .encode .be [0x33#8]], some 5) := by
  decide
theorem test_be_sink_empty : outcome (.beEncSink 0 0) demo = some ([.encode .be [0x01#8], .encode .be []], some 1) := by
  decide
theorem test_be_buf_short : (nextOf (exec (.beEncBuf 0 4 64 3) demo)).map (fun t => (t.mem.span 64 4, t.ret)) =
    some ([0x03#8, 0x11#8, 0x22#8, 0x00#8], some 5) := by decide
theorem test_be_buf_measure : (nextOf (exec (.beEncBuf 0 4 64 0) demo)).map (fun t => (t.mem, t.sink, t.ret)) =
    some (demo.mem, [], some 5) := by decide
theorem test_bd_sink : outcome (.bdDecSink 16 6) demo =
    some ([.decode .bd [0x11#8, 0x22#8] 0 false, .decode .bd [0x00#8] 0 false, .decode .bd [0x33#8] 0 false], some 4) := by
  decide
theorem test_bd_sink_truncated : outcome (.bdDecSink 32 4) demoTrunc =
    some ([.decode .bd [0x11#8] 0 false, .decode .bd [] 3 true], some 0) := by decide
theorem test_bd_buf_short : (nextOf (exec (.bdDecBuf 16 6 64 2) demo)).map (fun t => (t.mem.span 64 3, t.ret)) =
    some ([0x11#8, 0x22#8, 0x00#8], some 4) := by decide
theorem test_bd_buf_truncated : outcome (.bdDecBuf 32 4 64 8) demoTrunc = some ([], some 0) := by decide
theorem test_se_reset : seOutcome .seReset (sePending 2) = some ([], 0) := by decide
theorem test_se_sink_zero : seOutcome (.seSink 0x00#8) (sePending 2) = some ([.encode .se [0x03#8, 0x11#8, 0x11#8]], 0) := by
  decide
theorem test_se_sink_full : seOutcome (.seSink 0x00#8) (sePending 254) =
    some ([.encode .se (0xFF#8 :: List.replicate 254 0x11#8), .encode .se [0x01#8]], 0) := by decide
theorem test_se_stop : seOutcome .seStop (sePending 1) = some ([.encode .se [0x02#8, 0x11#8, 0x00#8]], 0) := by decide
theorem test_se_stop_full : seOutcome .seStop (sePending 254) =
    some ([.encode .se (0xFF#8 :: (List.replicate 254 0x11#8 ++ [0x00#8]))], 0) := by decide
theorem test_sd_reset : sdOutcome .sdReset (sdAt 0x05#8 2) = some ([], 0x00#8, 0) := by decide
theorem test_sd_sink_code : sdOutcome (.sdSink 0x02#8) (sdAt 0x03#8 2) =
    some ([.decode .sd [0x11#8, 0x11#8, 0x00#8] 0 false], 0x02#8, 0) := by decide
theorem test_sd_sink_code_after_full : sdOutcome (.sdSink 0x02#8) (sdAt 0xFF#8 254) =
    some ([.decode .sd (List.replicate 254 0x11#8) 0 false], 0x02#8, 0) := by decide
theorem test_sd_stop : sdOutcome .sdStop (sdAt 0xFF#8 253) =
    some ([.decode .sd (List.replicate 253 0x11#8) 1 false], 0x00#8, 0) := by decide
theorem test_sd_stop_full : sdOutcome .sdStop (sdAt 0xFF#8 254) =
    some ([.decode .sd (List.replicate 254 0x11#8) 0 false], 0x00#8, 0) := by decide
theorem test_w_delim : sdOutcome .wDelim (sdAt 0x02#8 1) = some ([.decode .sd [0x11#8] 0 false], 0x00#8, 0) := by decide
theorem test_w_full : sdOutcome .wFull State.reset = some ([], 0xFF#8, 0) := by decide
theorem test_w_run : sdOutcome (.wRun 0x01#8) (sdAt 0x01#8 0) = some ([.decode .sd [0x00#8] 0 false], 0x01#8, 0) := by
  decide
theorem test_w_data : sdOutcome (.wData 0x05#8) (sdAt 0x03#8 0) = some ([], 0x03#8, 1) := by decide
theorem test_w_data_zero : sdOutcome (.wData 0x00#8) (sdAt 0x03#8 1) = some ([.decode .sd [0x11#8] 1 false], 0x00#8, 0) := by
  decide

/-! ### Values that meet the hypotheses of the statements -/

theorem witness_DecodeOfEncodeIsTheInstruction :
    (Instr.wf resetParams (.beEncBuf 4294967295 0 4294967295 4294967295) = true ∧
      Instr.readAt (.beEncBuf 4294967295 0 4294967295 4294967295) .data = true) ∧
    (Instr.wf resetParams (.wRun 0xFE#8) = true ∧ Instr.readAt (.wRun 0xFE#8) .code = true) ∧
    (Instr.wf resetParams (.wData 0x00#8) = true ∧ Instr.readAt (.wData 0x00#8) .data = true) := by decide

theorem witness_DecodeReadsOnlyEncodings :
    decode resetParams .code [.byte 0x21#8, .byte 0x41#8, .wire 0x00#8] = .ok (.seSink 0x41#8, [.wire 0x00#8]) := by decide

theorem witness_UnassignedOpcodesAreRefused :
    0x02#8 ∉ [0x00#8, 0x01#8, 0x10#8, 0x11#8, 0x20#8, 0x21#8, 0x22#8, 0x30#8, 0x31#8, 0x32#8] ∧
    0xFF#8 ∉ [0x00#8, 0x01#8, 0x10#8, 0x11#8, 0x20#8, 0x21#8, 0x22#8, 0x30#8, 0x31#8, 0x32#8] ∧
    State.pending { State.reset with pending := [.byte 0xFF#8] } = .byte 0xFF#8 :: [] := by decide

theorem witness_StepRunsTheDecodedCommand :
    decode resetParams State.reset.position [.byte 0x22#8, .byte 0x30#8] = .ok (.seStop, [.byte 0x30#8]) := by decide

theorem witness_StepWaitsWithNothingPending : State.reset.pending = [] := rfl

theorem witness_HostStoreChangesOneByte :
    demo.mem.wf = true ∧ State.pending { demo with pending := [.hostWrite 2 0x07#8] } = .hostWrite 2 0x07#8 :: [] := by
  decide

theorem witness_StepKeepsTheInvariant : State.inv { demo with pending := [.byte 0x10#8, .value 16, .value 6] } = true ∧
    (nextOf (step { demo with pending := [.byte 0x10#8, .value 16, .value 6] })).isSome = true := by decide

theorem witness_UnitsDoNotReadOrWriteEachOther :
    Instr.unit .seStop ≠ .sd ∧ Instr.unit .sdStop ≠ .se ∧ Instr.unit (.bdDecBuf 0 0 0 0) ≠ .sd ∧
      Instr.unit (.beEncSink 0 0) ≠ .se := by decide

theorem witness_StreamingCommandsIgnoreHostMemory : Instr.unit (.seSink 0x00#8) = .se ∧ Instr.unit (.wData 0x00#8) = .sd := by
  decide

theorem witness_OutputIsOnlyAppended : (nextOf (exec (.sdSink 0x00#8) (sdAt 0x05#8 2))).isSome = true := by decide

theorem witness_OnlyBufferCommandsWriteMemory :
    (nextOf (exec (.beEncBuf 0 4 64 3) demo)).isSome = true ∧ (nextOf (exec (.beEncSink 0 4) demo)).isSome = true := by
  decide

/-- Two memories that differ outside `SRC[0..4)`, and buffer commands that run on the first. -/
theorem witness_BulkCommandsReadOnlySource :
    demo.mem.wf = true ∧ Memory.wf [(0, 0x11#8), (1, 0x22#8), (3, 0x33#8), (64, 0x99#8)] = true ∧
    (∀ k, k < 4 → Memory.read [(0, 0x11#8), (1, 0x22#8), (3, 0x33#8), (64, 0x99#8)] (0 + k) = demo.mem.read (0 + k)) ∧
    (nextOf (exec (.beEncBuf 0 4 64 3) demo)).isSome = true ∧ (nextOf (exec (.bdDecBuf 0 4 64 3) demo)).isSome = true := by
  decide

theorem witness_StreamingCommandsAlwaysComplete :
    Instr.sdStop ∈ [Instr.seReset, .seSink 0x00#8, .seStop, .sdReset, .sdSink 0x00#8, .sdStop] := by decide

theorem witness_EncodersReportNoError :
    Instr.unit (.beEncSink 0 4) = .be ∧ (nextOf (exec (.beEncSink 0 4) demo)).isSome = true ∧
    Instr.unit .seStop = .se ∧ (nextOf (exec .seStop demo)).isSome = true ∧
    (0 : Nat) + 1 + (0 - 1) / 254 < 2 ^ demo.params.sizeW ∧ 0 < 2 ^ demo.params.sizeW ∧ disjoint 0 0 64 0 ∧
    (4 : Nat) + 1 + (4 - 1) / 254 < 2 ^ demo.params.sizeW ∧ 3 < 2 ^ demo.params.sizeW ∧ disjoint 0 4 64 3 :=
  ⟨by decide, by decide, by decide, by decide, by decide, by decide, disjoint_of_le (by decide), by decide, by decide,
    disjoint_of_le (by decide)⟩

/-- Each side of the refusals, at the bound: 4-bit sizes admit `n = 14` and refuse `n = 15` in BE, admit 15 and refuse 16 in BD. -/
theorem witness_BulkCommandsAreRefusedExactlyOnMisuse :
    (nextOf (exec (.beEncSink 0 14) narrow)).isSome = true ∧ refusedWith .sizeOverflow (exec (.beEncSink 0 15) narrow) ∧
    (nextOf (exec (.bdDecSink 0 15) narrow)).isSome = true ∧ refusedWith .sizeOverflow (exec (.bdDecSink 0 16) narrow) ∧
    refusedWith .sizeOverflow (exec (.beEncBuf 0 4 64 16) narrow) ∧ refusedWith .srcDstOverlap (exec (.beEncBuf 0 4 3 1) narrow) ∧
    (nextOf (exec (.beEncBuf 0 4 4 15) narrow)).isSome = true ∧ refusedWith .sizeOverflow (exec (.bdDecBuf 0 4 64 16) narrow) ∧
    refusedWith .srcDstOverlap (exec (.bdDecBuf 4 4 0 5) narrow) ∧ (nextOf (exec (.bdDecBuf 4 4 0 4) narrow)).isSome = true := by
  decide

theorem witness_BeSinkEmitsEachBlockTwice : 14 + 1 + (14 - 1) / 254 < 2 ^ narrow.params.sizeW := by decide

theorem witness_BeBufStoresTheEncodingUpToCap :
    demo.mem.wf = true ∧ 4 + 1 + (4 - 1) / 254 < 2 ^ demo.params.sizeW ∧ 3 < 2 ^ demo.params.sizeW ∧ disjoint 0 4 64 3 :=
  ⟨by decide, by decide, by decide, disjoint_of_le (by decide)⟩

theorem witness_BeScanKeepsItsWorkingQuantities : 2 ≤ [0x11#8, 0x00#8].length := by decide

theorem witness_EncodingIsAGrammarFrameOfThePayload :
    ∃ t es, exec (.beEncSink 0 4) demo = .next t ∧ t.sink = demo.sink ++ es := ⟨_, _, rfl, rfl⟩

theorem witness_EncoderOutputHasNoZero :
    (∃ t es, exec (.beEncSink 0 4) demo = .next t ∧ t.sink = demo.sink ++ es) ∧
    State.seOk (sePending 254) = true ∧ (nextOf (exec (.seSink 0x00#8) (sePending 254))).isSome = true :=
  ⟨⟨_, _, rfl, rfl⟩, by decide, by decide +kernel⟩

theorem witness_EncodingSizeIsTheClosedForm : 4 + 1 + (4 - 1) / 254 < 2 ^ demo.params.sizeW := by decide

theorem witness_BdSinkDecodesEveryInput : 15 < 2 ^ narrow.params.sizeW := by decide

theorem witness_BdBufDecodesEveryInput :
    demo.mem.wf = true ∧ 6 < 2 ^ demo.params.sizeW ∧ 2 < 2 ^ demo.params.sizeW ∧ disjoint 16 6 64 2 :=
  ⟨by decide, by decide, by decide, disjoint_of_le (by decide)⟩

/-- The truncated frame of R140: one complete block, then the code `0x05` with one of four data bytes. -/
theorem witness_TruncatedFrameIsReportedOnce :
    (∀ b ∈ [Block.mk 0x02#8 [0x11#8]], b.sized = true) ∧ [0x22#8].length < (0x05#8).toNat - 1 ∧
    4 < 2 ^ demoTrunc.params.sizeW ∧
    demoTrunc.mem.span 32 4 = wireBytes [Block.mk 0x02#8 [0x11#8]] ++ 0x05#8 :: [0x22#8] ∧
    8 < 2 ^ demoTrunc.params.sizeW ∧ disjoint 32 4 64 8 :=
  ⟨by decide, by decide, by decide, by decide, by decide, disjoint_of_le (by decide)⟩

theorem witness_DecodingNeverLengthens :
    (∃ t, exec (.bdDecSink 16 6) demo = .next t) ∧ (∃ t, exec (.bdDecBuf 16 6 64 2) demo = .next t) := ⟨⟨_, rfl⟩, ⟨_, rfl⟩⟩

theorem witness_BufferModeStoresWhatSinkModeEmits :
    demo.mem.wf = true ∧
    (∃ t u es, exec (.beEncSink 0 4) demo = .next t ∧ t.sink = demo.sink ++ es ∧ exec (.beEncBuf 0 4 64 3) demo = .next u) ∧
    (∃ t u es, exec (.bdDecSink 16 6) demo = .next t ∧ t.sink = demo.sink ++ es ∧ exec (.bdDecBuf 16 6 64 2) demo = .next u) :=
  ⟨by decide, ⟨_, _, _, rfl, rfl, rfl⟩, ⟨_, _, _, rfl, rfl, rfl⟩⟩

theorem witness_SeSinkTakesOneByte :
    State.seCnt (sePending 254) ≤ 254 ∧ State.seCnt (sePending 253) ≤ 254 ∧ State.seCnt (sePending 0) ≤ 254 := by decide

theorem witness_StreamingEncoderEqualsBulkEncoder :
    4 + 1 + (4 - 1) / 254 < 2 ^ demo.params.sizeW ∧ State.seCnt (sePending 0) = 0 ∧ 4 ≤ 4 := by decide

/-- One state for each case of `SD.SINK`: awaiting a code, inside a block, after a block that is not full, after a full one. -/
theorem witness_SdSinkTakesOneByte :
    State.sdOk State.reset = true ∧ State.sdOk (sdAt 0x03#8 1) = true ∧ State.sdOk (sdAt 0xFE#8 253) = true ∧
      State.sdOk (sdAt 0xFF#8 254) = true := by decide

/-- One state for each clause, at the ends of the range of codes. -/
theorem witness_LeftValuesAtTheBoundaries :
    (State.reset.sdCode = 0x00#8 ∧ State.reset.sdSize = 0) ∧
    (∀ c ∈ [0x01#8, 0xFF#8], 1 ≤ (sdAt c (c.toNat - 1)).sdCode.toNat ∧
      (sdAt c (c.toNat - 1)).sdSize = (sdAt c (c.toNat - 1)).sdCode.toNat - 1) ∧
    (∀ c ∈ [0x02#8, 0xFF#8], 2 ≤ (sdAt c (c.toNat - 2)).sdCode.toNat ∧
      (sdAt c (c.toNat - 2)).sdSize = (sdAt c (c.toNat - 2)).sdCode.toNat - 2) ∧
    (∀ c ∈ [0x01#8, 0xFF#8], 1 ≤ (sdAt c 0).sdCode.toNat ∧ (sdAt c 0).sdSize = 0) := by decide

theorem witness_ExactlyOneLogicalState :
    (State.reset.sdOk = true ∧ State.reset.awaitingCode = true) ∧
    ((sdAt 0x02#8 0).sdOk = true ∧ (sdAt 0x02#8 0).receivingBlock = true) ∧
    ((sdAt 0x01#8 0).sdOk = true ∧ (sdAt 0x01#8 0).blockComplete = true) := by decide

/-- A state and a byte for each row of the table, at the ends of its range. -/
theorem witness_LogicalStatesFollowTheTable :
    (State.reset.sdOk = true ∧ State.reset.receivingBlock = false) ∧
    ((sdAt 0xFF#8 254).sdOk = true ∧ (sdAt 0xFF#8 254).receivingBlock = false ∧ 2 ≤ (0x02#8).toNat) ∧
    ((sdAt 0x03#8 0).sdOk = true ∧ (sdAt 0x03#8 0).receivingBlock = true ∧ (sdAt 0x03#8 0).sdSize < (sdAt 0x03#8 0).sdCode.toNat - 2) ∧
    ((sdAt 0x02#8 0).sdOk = true ∧ (sdAt 0x02#8 0).receivingBlock = true ∧ (sdAt 0x02#8 0).sdSize = (sdAt 0x02#8 0).sdCode.toNat - 2) := by
  decide

theorem witness_EndingInsideABlockReportsTruncation :
    ((sdAt 0xFF#8 253).sdOk = true ∧ (sdAt 0xFF#8 253).receivingBlock = true) ∧
    ((sdAt 0xFF#8 254).sdOk = true ∧ (sdAt 0xFF#8 254).receivingBlock = false) ∧
    (State.reset.sdOk = true ∧ State.reset.receivingBlock = false) := by decide

/-- A code with no data byte, with some, and with all of its data bytes following. -/
theorem witness_PositionFollowsTheBytesRead :
    State.reset.sdOk = true ∧ State.reset.position = .code ∧ (0x03#8 ≠ 0x00#8) ∧ (∀ d ∈ [0x11#8, 0x22#8], d ≠ 0x00#8) ∧
    [0x11#8, 0x22#8].length + 1 ≤ (0x03#8).toNat ∧ [0x11#8].length + 1 ≤ (0x03#8).toNat ∧
    ([] : List Byte).length + 1 ≤ (0x01#8).toNat := by decide

theorem witness_WireRowsRunAtTheirPosition :
    (State.reset.sdOk = true ∧ State.reset.position = .code) ∧ ((sdAt 0x05#8 4).sdOk = true ∧ (sdAt 0x05#8 4).position = .code) ∧
    ((sdAt 0xFF#8 254).sdOk = true ∧ (sdAt 0xFF#8 254).position = .code) ∧
    ((sdAt 0x05#8 3).sdOk = true ∧ (sdAt 0x05#8 3).position = .data) := by decide

theorem witness_WireRowsAreRefusedElsewhere : (sdAt 0x05#8 3).position = .data ∧ State.reset.position = .code := by decide

theorem witness_StreamingEmissionsAreBounded :
    (sePending 254).seOk = true ∧ (sePending 254).sdOk = true ∧
    (∃ t es, exec (.seSink 0x00#8) (sePending 254) = .next t ∧ t.sink = (sePending 254).sink ++ es) ∧
    (sdAt 0xFF#8 254).seOk = true ∧ (sdAt 0xFF#8 254).sdOk = true ∧
    (∃ t es, exec (.sdSink 0x02#8) (sdAt 0xFF#8 254) = .next t ∧ t.sink = (sdAt 0xFF#8 254).sink ++ es) :=
  ⟨by decide, by decide +kernel, ⟨_, _, rfl, rfl⟩, by decide +kernel, by decide +kernel, ⟨_, _, rfl, rfl⟩⟩

theorem witness_RoundTripOfEveryPayload :
    (demo.mem.span 16 6 = frame [0x11#8, 0x22#8, 0x00#8, 0x33#8] ∧ demo.mem.span 16 5 = enc [0x11#8, 0x22#8, 0x00#8, 0x33#8] ∧
      6 < 2 ^ demo.params.sizeW) ∧
    (demo.mem.wf = true ∧ 4 < 2 ^ demo.params.sizeW ∧ disjoint 16 6 64 4 ∧ [0x11#8, 0x22#8, 0x00#8, 0x33#8].length ≤ 4) ∧
    (demo.sdCode = 0x00#8 ∧ demo.sdSize = 0) :=
  ⟨by decide, ⟨by decide, by decide, disjoint_of_le (by decide), by decide⟩, by decide⟩

theorem witness_DecodersYieldThePayloadOfTheBlocks :
    (∀ b ∈ [Block.mk 0x03#8 [0x11#8, 0x22#8], Block.mk 0x02#8 [0x33#8]], b.wf = true) ∧ 6 < 2 ^ demo.params.sizeW ∧
    demo.mem.span 16 6 = wireBytes [Block.mk 0x03#8 [0x11#8, 0x22#8], Block.mk 0x02#8 [0x33#8]] ++ [0x00#8] ∧
    demo.mem.span 16 5 = wireBytes [Block.mk 0x03#8 [0x11#8, 0x22#8], Block.mk 0x02#8 [0x33#8]] ∧
    demo.sdCode = 0x00#8 ∧ demo.sdSize = 0 := by decide

theorem witness_TruncationIsDetectedByAllDecoders :
    (∀ b ∈ [Block.mk 0x02#8 [0x11#8]], b.wf = true) ∧ (∀ v ∈ [0x22#8], v ≠ 0x00#8) ∧ [0x22#8].length < (0x05#8).toNat - 1 ∧
    4 < 2 ^ demoTrunc.params.sizeW ∧ demoTrunc.mem.span 32 4 = wireBytes [Block.mk 0x02#8 [0x11#8]] ++ 0x05#8 :: [0x22#8] ∧
    8 < 2 ^ demoTrunc.params.sizeW ∧ disjoint 32 4 64 8 ∧ demoTrunc.sdCode = 0x00#8 ∧ demoTrunc.sdSize = 0 :=
  ⟨by decide, by decide, by decide, by decide, by decide, by decide, disjoint_of_le (by decide), by decide, by decide⟩

/-- The payload at 0, its encoding (5 bytes) to 64, the delimiter after it, the decoded payload to 80. -/
theorem witness_MeasureThenFillThenDecodeRestoresThePayload :
    demo.mem.wf = true ∧ 4 + 2 + (4 - 1) / 254 < 2 ^ demo.params.sizeW ∧ 8 < 2 ^ demo.params.sizeW ∧ 4 ≤ 8 ∧
    (nextOf (exec (.beEncBuf 0 4 64 0) demo)).map State.ret = some (some 5) ∧ disjoint 0 4 64 5 ∧ disjoint 64 (5 + 1) 80 8 :=
  ⟨by decide, by decide, by decide, by decide, by decide, disjoint_of_le (by decide), disjoint_of_le (by decide)⟩

theorem witness_EncodingIsInjective :
    ∃ t t' es es', exec (.beEncSink 0 4) demo = .next t ∧ t.sink = demo.sink ++ es ∧
      exec (.beEncSink 0 4) narrow = .next t' ∧ t'.sink = narrow.sink ++ es' ∧ chunks es = chunks es' :=
  ⟨_, _, _, _, rfl, rfl, rfl, rfl, rfl⟩

end Sys2Proof.Tests
end

section
/-! PROOFS. The rules of `spec/00_scope.md`: which changes of the state the commands of a unit cannot see (R2), and when a bulk
command is refused and when it completes (R9, R60, R204). -/

namespace Sys2Proof.Machine

/-! ### Changes of the state that a unit's commands ignore

A change `f` of the state is ignored by a unit when `f` keeps every field that the unit's commands read, and commutes with every
update that they make. Each command of that unit then does the same before `f` as after it. -/

variable {f : State → State} {s : State}

@[simp] theorem mapNext_next : mapNext f (.next s) = .next (f s) := rfl

@[simp] theorem mapNext_refused (why : Refusal) : mapNext f (.refused why) = .refused why := rfl

/-- A bulk command reads the widths and the host's memory, and updates the record, `RET` and the memory. -/
structure IgnoredByBulk (f : State → State) : Prop where
  params : ∀ s, (f s).params = s.params
  mem : ∀ s, (f s).mem = s.mem
  emit : ∀ s es, (f s).emit es = f (s.emit es)
  setRet : ∀ s r, (f s).setRet r = f (s.setRet r)
  setMem : ∀ s m, (f s).setMem m = f (s.setMem m)

/-- An SE command reads and updates `SE.cnt` and `SE.buf`, and appends to the record. -/
structure IgnoredBySe (f : State → State) : Prop where
  seCnt : ∀ s, (f s).seCnt = s.seCnt
  seBuf : ∀ s, (f s).seBuf = s.seBuf
  emit : ∀ s es, (f s).emit es = f (s.emit es)
  setSeCnt : ∀ s c, (f s).setSeCnt c = f (s.setSeCnt c)
  setSeByte : ∀ s i b, (f s).setSeByte i b = f (s.setSeByte i b)

/-- An SD command reads and updates `SD.code`, `SD.size` and `SD.buf`, and appends to the record. -/
structure IgnoredBySd (f : State → State) : Prop where
  sdCode : ∀ s, (f s).sdCode = s.sdCode
  sdSize : ∀ s, (f s).sdSize = s.sdSize
  sdBuf : ∀ s, (f s).sdBuf = s.sdBuf
  emit : ∀ s es, (f s).emit es = f (s.emit es)
  setSdCode : ∀ s c, (f s).setSdCode c = f (s.setSdCode c)
  setSdSize : ∀ s n, (f s).setSdSize n = f (s.setSdSize n)
  setSdByte : ∀ s i b, (f s).setSdByte i b = f (s.setSdByte i b)

/-! ### The bulk units -/

theorem IgnoredByBulk.source (hf : IgnoredByBulk f) (src n : Nat) : (f s).source src n = s.source src n := by
  simp only [State.source, hf.mem]

theorem IgnoredByBulk.sinkCommand (hf : IgnoredByBulk f) (refusal : Option Refusal) (es : List Emission) (r : Nat) :
    sinkCommand refusal es r (f s) = mapNext f (sinkCommand refusal es r s) := by
  cases refusal with
  | none => simp only [Machine.sinkCommand, mapNext_next, hf.emit, hf.setRet]
  | some why => rfl

theorem IgnoredByBulk.bufCommand (hf : IgnoredByBulk f) (refusal : Option Refusal) (dst cap : Nat) (o : List Byte) (r : Nat) :
    bufCommand refusal dst cap o r (f s) = mapNext f (bufCommand refusal dst cap o r s) := by
  cases refusal with
  | none => simp only [Machine.bufCommand, mapNext_next, hf.mem, hf.setMem, hf.setRet]
  | some why => rfl

/-- The commands of BE and BD do the same whatever an ignored change does to the state. -/
theorem IgnoredByBulk.exec (hf : IgnoredByBulk f) {i : Instr} (hu : i.unit = .be ∨ i.unit = .bd) :
    exec i (f s) = mapNext f (exec i s) := by
  cases i with
  | beEncSink src n => simp only [Machine.exec, execBeEncSink, hf.source, hf.params, hf.sinkCommand]
  | beEncBuf src n dst cap => simp only [Machine.exec, execBeEncBuf, hf.source, hf.params, hf.bufCommand]
  | bdDecSink src n => simp only [Machine.exec, execBdDecSink, hf.source, hf.params, hf.sinkCommand]
  | bdDecBuf src n dst cap => simp only [Machine.exec, execBdDecBuf, hf.source, hf.params, hf.bufCommand]
  | _ => simp [Instr.unit] at hu

/-! ### The streaming encoder -/

theorem IgnoredBySe.seData (hf : IgnoredBySe f) : (f s).seData = s.seData := by
  simp only [State.seData, hf.seBuf, hf.seCnt]

theorem IgnoredBySe.seCode (hf : IgnoredBySe f) : (f s).seCode = s.seCode := by
  simp only [State.seCode, hf.seCnt]

theorem IgnoredBySe.seFlush (hf : IgnoredBySe f) : seFlush (f s) = f (seFlush s) := by
  simp only [Machine.seFlush, hf.seCode, hf.seData, hf.emit, hf.setSeCnt]

theorem IgnoredBySe.seFlushFull (hf : IgnoredBySe f) : seFlushFull (f s) = f (seFlushFull s) := by
  simp only [Machine.seFlushFull, hf.seCnt, hf.seFlush, apply_ite f]

theorem IgnoredBySe.seTake (hf : IgnoredBySe f) (b : Byte) : seTake b (f s) = f (seTake b s) := by
  simp only [Machine.seTake, hf.seCnt, hf.seFlush, hf.setSeByte, hf.setSeCnt, apply_ite f]

/-- The commands of SE do the same whatever an ignored change does to the state. -/
theorem IgnoredBySe.exec (hf : IgnoredBySe f) {i : Instr} (hu : i.unit = .se) : exec i (f s) = mapNext f (exec i s) := by
  cases i with
  | seReset => simp only [Machine.exec, execSeReset, mapNext_next, hf.setSeCnt]
  | seSink b => simp only [Machine.exec, execSeSink, mapNext_next, hf.seFlushFull, hf.seTake]
  | seStop => simp only [Machine.exec, execSeStop, mapNext_next, hf.seCode, hf.seData, hf.emit, hf.setSeCnt]
  | _ => simp [Instr.unit] at hu

/-! ### The streaming decoder -/

theorem IgnoredBySd.sdData (hf : IgnoredBySd f) : (f s).sdData = s.sdData := by
  simp only [State.sdData, hf.sdBuf, hf.sdSize]

theorem IgnoredBySd.position (hf : IgnoredBySd f) : (f s).position = s.position := by
  simp only [State.position, hf.sdCode, hf.sdSize]

theorem IgnoredBySd.sdFinalize (hf : IgnoredBySd f) : sdFinalize (f s) = f (sdFinalize s) := by
  simp only [Machine.sdFinalize, hf.sdData, hf.sdCode, hf.sdSize, hf.emit, hf.setSdCode, hf.setSdSize]

theorem IgnoredBySd.sdImpliedZero (hf : IgnoredBySd f) : sdImpliedZero (f s) = f (sdImpliedZero s) := by
  simp only [Machine.sdImpliedZero, hf.sdCode, hf.sdSize, hf.setSdByte, hf.setSdSize, apply_ite f]

theorem IgnoredBySd.sdRelease (hf : IgnoredBySd f) : sdRelease (f s) = f (sdRelease s) := by
  simp only [Machine.sdRelease, hf.sdCode, hf.sdImpliedZero, hf.sdData, hf.emit, apply_ite f]

theorem IgnoredBySd.sdTakeCode (hf : IgnoredBySd f) (c : Byte) : sdTakeCode c (f s) = f (sdTakeCode c s) := by
  simp only [Machine.sdTakeCode, hf.sdRelease, hf.setSdSize, hf.setSdCode]

theorem IgnoredBySd.sdTakeData (hf : IgnoredBySd f) (b : Byte) : sdTakeData b (f s) = f (sdTakeData b s) := by
  simp only [Machine.sdTakeData, hf.sdSize, hf.setSdByte, hf.setSdSize]

theorem IgnoredBySd.atPosition (hf : IgnoredBySd f) (pos : Position) (effect : State) :
    atPosition pos (f effect) (f s) = mapNext f (atPosition pos effect s) := by
  simp only [Machine.atPosition, hf.position, apply_ite (mapNext f), mapNext_next, mapNext_refused]

/-- The commands of SD and the wire rows do the same whatever an ignored change does to the state. -/
theorem IgnoredBySd.exec (hf : IgnoredBySd f) {i : Instr} (hu : i.unit = .sd) : exec i (f s) = mapNext f (exec i s) := by
  cases i with
  | sdReset => simp only [Machine.exec, execSdReset, mapNext_next, hf.setSdCode, hf.setSdSize]
  | sdSink b =>
    simp only [Machine.exec, execSdSink, hf.sdCode, hf.sdSize, hf.sdFinalize, hf.sdTakeCode, hf.sdTakeData,
      apply_ite (mapNext f), mapNext_next]
  | sdStop => simp only [Machine.exec, execSdStop, mapNext_next, hf.sdFinalize]
  | wDelim => simp only [Machine.exec, execWDelim, hf.sdFinalize, hf.atPosition]
  | wFull => simp only [Machine.exec, execWFull, hf.sdTakeCode, hf.atPosition]
  | wRun code => simp only [Machine.exec, execWRun, hf.sdTakeCode, hf.atPosition]
  | wData data =>
    simp only [Machine.exec, execWData, hf.sdFinalize, hf.sdTakeData, ← apply_ite f, hf.atPosition]
  | _ => simp [Instr.unit] at hu

/-! ### No unit reads or writes the state of another -/

/-- The state with SD's three fields replaced. -/
def State.withSd (c : Byte) (z : Nat) (v : Vector Byte 254) (s : State) : State :=
  { s with sdCode := c, sdSize := z, sdBuf := v }

/-- The state with SE's two fields replaced. -/
def State.withSe (n : Nat) (v : Vector Byte 254) (s : State) : State := { s with seCnt := n, seBuf := v }

theorem withSd_ignoredByBulk (c : Byte) (z : Nat) (v : Vector Byte 254) : IgnoredByBulk (State.withSd c z v) where
  params _ := rfl
  mem _ := rfl
  emit _ _ := rfl
  setRet _ _ := rfl
  setMem _ _ := rfl

theorem withSd_ignoredBySe (c : Byte) (z : Nat) (v : Vector Byte 254) : IgnoredBySe (State.withSd c z v) where
  seCnt _ := rfl
  seBuf _ := rfl
  emit _ _ := rfl
  setSeCnt _ _ := rfl
  setSeByte _ _ _ := rfl

theorem withSe_ignoredByBulk (n : Nat) (v : Vector Byte 254) : IgnoredByBulk (State.withSe n v) where
  params _ := rfl
  mem _ := rfl
  emit _ _ := rfl
  setRet _ _ := rfl
  setMem _ _ := rfl

theorem withSe_ignoredBySd (n : Nat) (v : Vector Byte 254) : IgnoredBySd (State.withSe n v) where
  sdCode _ := rfl
  sdSize _ := rfl
  sdBuf _ := rfl
  emit _ _ := rfl
  setSdCode _ _ := rfl
  setSdSize _ _ := rfl
  setSdByte _ _ _ := rfl

/-- Settles O12: by the unit of the instruction, each of which ignores the replaced fields of the other. -/
theorem unitsDoNotReadOrWriteEachOther : Obligations.UnitsDoNotReadOrWriteEachOther := by
  refine ⟨fun i s c z v hu => ?_, fun i s n v hu => ?_⟩
  · change exec i (s.withSd c z v) = mapNext (State.withSd c z v) (exec i s)
    cases h : i.unit with
    | be => exact (withSd_ignoredByBulk c z v).exec (.inl h)
    | bd => exact (withSd_ignoredByBulk c z v).exec (.inr h)
    | se => exact (withSd_ignoredBySe c z v).exec h
    | sd => exact absurd h hu
  · change exec i (s.withSe n v) = mapNext (State.withSe n v) (exec i s)
    cases h : i.unit with
    | be => exact (withSe_ignoredByBulk n v).exec (.inl h)
    | bd => exact (withSe_ignoredByBulk n v).exec (.inr h)
    | se => exact absurd h hu
    | sd => exact (withSe_ignoredBySd n v).exec h

/-! ### When a bulk command is refused and when it completes

In both bulk units `n` is at most the bound of R204, so `n` fits `SIZE_W` when the bound does. -/

theorem le_beBound (n : Nat) : n ≤ beBound n := (Nat.le_add_right n 1).trans (Nat.le_add_right _ _)

theorem le_bdBound (n : Nat) : n ≤ bdBound n := le_rfl

theorem sinkRefusal_sizeOverflow {p : Params} {n bound : Nat} :
    sinkRefusal p n bound = some .sizeOverflow ↔ ¬ (n < 2 ^ p.sizeW ∧ bound < 2 ^ p.sizeW) := by
  rw [← sinkRefusal_none]
  unfold sinkRefusal
  split <;> simp

theorem bufRefusal_sizeOverflow {p : Params} {src n dst cap bound : Nat} :
    bufRefusal p src n dst cap bound = some .sizeOverflow ↔
      ¬ (n < 2 ^ p.sizeW ∧ cap < 2 ^ p.sizeW ∧ bound < 2 ^ p.sizeW) := by
  by_cases h : regionsShareByte src n dst cap = true <;> simp [bufRefusal, Params.isSize, h, ← and_assoc]

theorem bufRefusal_srcDstOverlap {p : Params} {src n dst cap bound : Nat} :
    bufRefusal p src n dst cap bound = some .srcDstOverlap ↔
      (n < 2 ^ p.sizeW ∧ cap < 2 ^ p.sizeW ∧ bound < 2 ^ p.sizeW) ∧ ¬ disjoint src n dst cap := by
  rw [← regionsShareByte_eq_false]
  by_cases h : regionsShareByte src n dst cap = true <;> simp [bufRefusal, Params.isSize, h, ← and_assoc]

section Bounded

variable {n bound : Nat} (hn : n ≤ bound) {src dst cap r : Nat} {es : List Emission} {o : List Byte}
include hn

theorem sizes_fit {w : Nat} : n < w ∧ cap < w ∧ bound < w ↔ bound < w ∧ cap < w := by omega

theorem sinkCommand_sizeOverflow :
    sinkCommand (sinkRefusal s.params n bound) es r s = .refused .sizeOverflow ↔ 2 ^ s.params.sizeW ≤ bound := by
  rw [sinkCommand_refused, sinkRefusal_sizeOverflow]
  omega

theorem sinkCommand_completes :
    (∃ t, sinkCommand (sinkRefusal s.params n bound) es r s = .next t) ↔ bound < 2 ^ s.params.sizeW := by
  simp only [sinkCommand_next, exists_and_left, exists_eq, and_true, sinkRefusal_none]
  omega

theorem bufCommand_sizeOverflow :
    bufCommand (bufRefusal s.params src n dst cap bound) dst cap o r s = .refused .sizeOverflow ↔
      2 ^ s.params.sizeW ≤ bound ∨ 2 ^ s.params.sizeW ≤ cap := by
  rw [bufCommand_refused, bufRefusal_sizeOverflow]
  omega

theorem bufCommand_srcDstOverlap :
    bufCommand (bufRefusal s.params src n dst cap bound) dst cap o r s = .refused .srcDstOverlap ↔
      bound < 2 ^ s.params.sizeW ∧ cap < 2 ^ s.params.sizeW ∧ ¬ disjoint src n dst cap := by
  rw [bufCommand_refused, bufRefusal_srcDstOverlap, sizes_fit hn, and_assoc]

theorem bufCommand_completes :
    (∃ t, bufCommand (bufRefusal s.params src n dst cap bound) dst cap o r s = .next t) ↔
      bound < 2 ^ s.params.sizeW ∧ cap < 2 ^ s.params.sizeW ∧ disjoint src n dst cap := by
  simp only [bufCommand_next, exists_and_left, exists_eq, and_true, bufRefusal_none, regionsShareByte_eq_false,
    sizes_fit hn, and_assoc]

end Bounded

/-- Settles O19: each bulk command is one of the two shapes, with the bound of its unit. -/
theorem bulkCommandsAreRefusedExactlyOnMisuse : Obligations.BulkCommandsAreRefusedExactlyOnMisuse := by
  intro s src n dst cap
  have be := le_beBound n
  have bd := le_bdBound n
  exact ⟨sinkCommand_sizeOverflow be, sinkCommand_completes be, sinkCommand_sizeOverflow bd, sinkCommand_completes bd,
    bufCommand_sizeOverflow be, bufCommand_srcDstOverlap be, bufCommand_completes be,
    bufCommand_sizeOverflow bd, bufCommand_srcDstOverlap bd, bufCommand_completes bd⟩

end Sys2Proof.Machine
end

section
/-! PROOFS. The state and its reset (`spec/10_state.md`): what each command keeps of the state it starts from (R10, R23, R24, R36,
R37, R41), the invariant between two commands (R31, R35), and the invariant of BE's scan inside one (R26, R112). -/

namespace Sys2Proof.Machine

variable {f : State → State} {i : Instr} {s t : State}

/-- The units are the two bulk ones and the two streaming ones (R1). -/
theorem unit_bulk_or_streaming (i : Instr) : (i.unit = .be ∨ i.unit = .bd) ∨ i.unit = .se ∨ i.unit = .sd := by
  cases i.unit <;> simp

/-! ### The host's part of the state -/

/-- A command that ignores a change leaves a state that the change fixes, if it starts from one. -/
theorem fixed_of_ignored (hf : exec i (f s) = mapNext f (exec i s)) (hs : f s = s) (h : exec i s = .next t) : f t = t := by
  rw [hs, h] at hf
  exact (Host.Outcome.next.inj hf).symm

theorem exec_of_ignoredByStreaming (hse : IgnoredBySe f) (hsd : IgnoredBySd f) (hu : i.unit = .se ∨ i.unit = .sd) :
    exec i (f s) = mapNext f (exec i s) :=
  hu.elim hse.exec hsd.exec

/-- The state with the host's memory and `RET` replaced. -/
def State.withHost (m : Memory) (r : Option Nat) (s : State) : State := { s with mem := m, ret := r }

theorem withHost_ignoredBySe (m : Memory) (r : Option Nat) : IgnoredBySe (State.withHost m r) where
  seCnt _ := rfl
  seBuf _ := rfl
  emit _ _ := rfl
  setSeCnt _ _ := rfl
  setSeByte _ _ _ := rfl

theorem withHost_ignoredBySd (m : Memory) (r : Option Nat) : IgnoredBySd (State.withHost m r) where
  sdCode _ := rfl
  sdSize _ := rfl
  sdBuf _ := rfl
  emit _ _ := rfl
  setSdCode _ _ := rfl
  setSdSize _ _ := rfl
  setSdByte _ _ _ := rfl

/-- Settles O13: SE and SD both ignore a replacement of the host's memory and `RET`. -/
theorem streamingCommandsIgnoreHostMemory : Obligations.StreamingCommandsIgnoreHostMemory := fun _ _ m r hu =>
  exec_of_ignoredByStreaming (withHost_ignoredBySe m r) (withHost_ignoredBySd m r) hu

/-- The state with the widths and the host's stream replaced. -/
def State.withWidthsAndStream (p : Params) (items : List Item) (s : State) : State := { s with params := p, pending := items }

theorem withWidthsAndStream_ignoredBySe (p : Params) (items : List Item) :
    IgnoredBySe (State.withWidthsAndStream p items) where
  seCnt _ := rfl
  seBuf _ := rfl
  emit _ _ := rfl
  setSeCnt _ _ := rfl
  setSeByte _ _ _ := rfl

theorem withWidthsAndStream_ignoredBySd (p : Params) (items : List Item) :
    IgnoredBySd (State.withWidthsAndStream p items) where
  sdCode _ := rfl
  sdSize _ := rfl
  sdBuf _ := rfl
  emit _ _ := rfl
  setSdCode _ _ := rfl
  setSdSize _ _ := rfl
  setSdByte _ _ _ := rfl

theorem streaming_mem_ret (hu : i.unit = .se ∨ i.unit = .sd) (h : exec i s = .next t) : t.mem = s.mem ∧ t.ret = s.ret := by
  have hfix : t.withHost s.mem s.ret = t :=
    fixed_of_ignored (streamingCommandsIgnoreHostMemory i s s.mem s.ret hu) rfl h
  exact ⟨(congrArg State.mem hfix).symm, (congrArg State.ret hfix).symm⟩

theorem streaming_params_pending (hu : i.unit = .se ∨ i.unit = .sd) (h : exec i s = .next t) :
    t.params = s.params ∧ t.pending = s.pending := by
  have hfix : t.withWidthsAndStream s.params s.pending = t :=
    fixed_of_ignored (exec_of_ignoredByStreaming (withWidthsAndStream_ignoredBySe _ _) (withWidthsAndStream_ignoredBySd _ _) hu)
      rfl h
  exact ⟨(congrArg State.params hfix).symm, (congrArg State.pending hfix).symm⟩

/-! ### The results of the bulk commands -/

theorem length_wireBytes_blockOf_cons (d : List Byte) (bs : List Block) :
    (wireBytes (blockOf d :: bs)).length = d.length + 1 + (wireBytes bs).length := by
  simp only [wireBytes, blockBytes, blockOf, List.flatMap_cons, List.length_append, List.length_cons]

/-- The size bound of BE in numerals (R118, R204). -/
theorem beBound_eq (n : Nat) : beBound n = n + 1 + (n - 1) / 254 := rfl

/-- The bound of R118 on the blocks of a payload, the pending block counted with the rest of it. -/
theorem length_encBlocksFrom_le (rest pend : List Byte) (hp : pend.length ≤ 254) :
    (wireBytes (encBlocksFrom pend rest)).length ≤ beBound (pend.length + rest.length) := by
  have hmax : maxData = 254 := rfl
  have hnil : (wireBytes []).length = 0 := rfl
  induction rest generalizing pend with
  | nil => simp only [encBlocksFrom, length_wireBytes_blockOf_cons, hnil, beBound_eq]; omega
  | cons v vs ih =>
    have h0 := ih [] (by simp)
    have h1 := ih [v] (by simp)
    have hjoin := ih (pend ++ [v])
    simp only [beBound_eq, List.length_append, List.length_cons, List.length_nil] at h0 h1 hjoin ⊢
    rw [encBlocksFrom]
    split_ifs with hfull
    · simp only [length_wireBytes_blockOf_cons, List.length_nil]; omega
    · rw [length_wireBytes_blockOf_cons]; omega
    · rw [length_wireBytes_blockOf_cons]; omega
    · have := hjoin (by omega)
      omega

/-- The result of a BE command is at most the bound that admitted it (R89, R204). -/
theorem beScan_total_le (payload : List Byte) : (beScan payload).total ≤ beBound payload.length := by
  rw [beScan_total]
  simpa [enc, encBlocks] using length_encBlocksFrom_le payload [] (by simp)

/-- A payload is shorter than its blocks: each code stands for at most one implied zero, the last for none. -/
theorem length_payloadOf_le (bs : List Block) : (payloadOf bs).length ≤ (wireBytes bs).length - 1 := by
  induction bs using payloadOf.induct with
  | case1 => simp [payloadOf]
  | case2 b => simp [payloadOf, wireBytes, blockBytes]
  | case3 b c bs ih =>
    have hzero : (if b.code = codeFull then [] else [delim]).length ≤ 1 := by split <;> simp
    simp only [payloadOf, wireBytes, blockBytes, List.flatMap_cons, List.length_append, List.length_cons] at *
    omega

/-- The result of a BD command is less than the length of its input, unless that is empty. -/
theorem bdRet_le (f : List Byte) : bdRet (bdParse f).1 (bdParse f).2 ≤ f.length - 1 := by
  obtain ⟨bs, e, hbs, he, rfl⟩ := blocks_then_end f
  have hle := length_payloadOf_le bs
  rw [bdRet_parse bs e hbs he, List.length_append]
  cases e <;> simp only [FrameEnd.ret] <;> omega

/-! ### What a bulk command can do -/

theorem unit_of_mem_beEmissions (bs : List Block) : ∀ e ∈ bs.flatMap beEmissions, e.unit = .be := by
  intro e he
  obtain ⟨b, -, hb⟩ := List.mem_flatMap.1 he
  simp only [beEmissions, List.mem_cons, List.not_mem_nil, or_false] at hb
  obtain rfl | rfl := hb <;> rfl

theorem unit_of_mem_bdOutEmissions (outs : List BdOut) : ∀ e ∈ outs.flatMap bdOutEmissions, e.unit = .bd := by
  intro e he
  obtain ⟨o, -, ho⟩ := List.mem_flatMap.1 he
  revert ho
  fun_cases bdOutEmissions o <;> simp +contextual [Emission.unit]

theorem unit_of_mem_bdEndEmissions (e : BdEnd) : ∀ x ∈ bdEndEmissions e, x.unit = .bd := by
  cases e <;> simp [bdEndEmissions, truncReport, Emission.unit]

@[simp] theorem State.length_source (s : State) (src n : Nat) : (s.source src n).length = n := Memory.length_span s.mem src n

/-- What a bulk command does when it completes: its `RET` is a number of `SIZE_W` bits, and beside that a sink-mode command appends
emissions of its unit, a bounded-buffer command stores output at the start of its `DST` (R113, R114, R134, R135, R204). -/
theorem bulk_next (hu : i.unit = .be ∨ i.unit = .bd) (h : exec i s = .next t) :
    ∃ r, r < 2 ^ s.params.sizeW ∧
      ((∃ es, (∀ e ∈ es, e.unit = i.unit) ∧ t = (s.emit es).setRet r) ∨
        ∃ src n dst cap o, (i = .beEncBuf src n dst cap ∨ i = .bdDecBuf src n dst cap) ∧
          t = (s.setMem (s.mem.outBytes dst cap 0 o)).setRet r) := by
  have hbe : ∀ src n, (beScan (s.source src n)).total ≤ beBound n := fun src n => by
    simpa using beScan_total_le (s.source src n)
  have hbd : ∀ src n, bdRet (bdParse (s.source src n)).1 (bdParse (s.source src n)).2 ≤ n := fun src n => by
    simpa using (bdRet_le (s.source src n)).trans (Nat.sub_le _ 1)
  cases i with
  | beEncSink src n =>
    obtain ⟨hr, rfl⟩ := sinkCommand_next.1 h
    exact ⟨_, (hbe src n).trans_lt (sinkRefusal_none.1 hr).2, .inl ⟨_, unit_of_mem_beEmissions _, rfl⟩⟩
  | bdDecSink src n =>
    obtain ⟨hr, rfl⟩ := sinkCommand_next.1 h
    refine ⟨_, (hbd src n).trans_lt (sinkRefusal_none.1 hr).1, .inl ⟨_, fun e he => ?_, rfl⟩⟩
    exact (List.mem_append.1 he).elim (unit_of_mem_bdOutEmissions _ e) (unit_of_mem_bdEndEmissions _ e)
  | beEncBuf src n dst cap =>
    obtain ⟨hr, rfl⟩ := bufCommand_next.1 h
    obtain ⟨⟨-, -, hbound⟩, -⟩ := bufRefusal_none.1 hr
    exact ⟨_, (hbe src n).trans_lt hbound, .inr ⟨src, n, dst, cap, _, .inl rfl, rfl⟩⟩
  | bdDecBuf src n dst cap =>
    obtain ⟨hr, rfl⟩ := bufCommand_next.1 h
    obtain ⟨⟨hn, -, -⟩, -⟩ := bufRefusal_none.1 hr
    exact ⟨_, (hbd src n).trans_lt hn, .inr ⟨src, n, dst, cap, _, .inr rfl, rfl⟩⟩
  | _ => simp [Instr.unit] at hu

/-! ### The invariant between two commands -/

theorem State.inv_iff : s.inv = true ↔ s.seOk = true ∧ s.sdOk = true ∧ s.mem.wf = true ∧ s.retOk = true := by
  simp only [State.inv, Bool.and_eq_true, and_assoc]

theorem State.seOk_of_cnt_zero (h : s.seCnt = 0) : s.seOk = true := by
  simp [State.seOk_iff, State.seData, h]

theorem State.sdOk_of_size_zero (h : s.sdSize = 0) : s.sdOk = true := by
  simp [State.sdOk_iff, State.sdData, h]

/-- After the first test of R153 the pending block has room for a byte. -/
theorem seOk_seFlushFull (h : s.seOk = true) : (seFlushFull s).seOk = true ∧ (seFlushFull s).seCnt < 254 := by
  unfold seFlushFull
  split
  · exact ⟨State.seOk_of_cnt_zero rfl, by simp⟩
  case isFalse hc =>
    obtain ⟨hcnt, -⟩ := State.seOk_iff.1 h
    exact ⟨h, lt_of_le_of_ne hcnt hc⟩

theorem seOk_seTake (b : Byte) (h : s.seOk = true) (hc : s.seCnt < 254) : (seTake b s).seOk = true := by
  unfold seTake
  split
  · exact State.seOk_of_cnt_zero rfl
  case isFalse hb =>
    obtain ⟨-, hdata⟩ := State.seOk_iff.1 h
    have happ : ((s.setSeByte s.seCnt b).setSeCnt (s.seCnt + 1)).seData = s.seData ++ [b] :=
      take_setIfInBounds s.seBuf b hc
    refine State.seOk_iff.2 ⟨hc, fun v hv => ?_⟩
    rw [happ, List.mem_append, List.mem_singleton] at hv
    obtain hv | rfl := hv
    · exact hdata v hv
    · exact hb

/-- The commands of SE keep R31. -/
theorem seOk_of_se (hu : i.unit = .se) (hs : s.seOk = true) (h : exec i s = .next t) : t.seOk = true := by
  cases i with
  | seReset => cases h; exact State.seOk_of_cnt_zero rfl
  | seSink b =>
    cases h
    obtain ⟨hok, hroom⟩ := seOk_seFlushFull hs
    exact seOk_seTake b hok hroom
  | seStop => cases h; exact State.seOk_of_cnt_zero rfl
  | _ => simp [Instr.unit] at hu

theorem position_data : s.position = .data ↔ s.sdCode ≠ 0x00#8 ∧ s.sdSize ≠ s.sdCode.toNat - 1 := by
  rw [← not_or, ← position_code]
  cases s.position <;> simp

/-- A non-zero data byte taken inside a block keeps R35. -/
theorem sdOk_sdTakeData {b : Byte} (h : s.sdOk = true) (hp : s.position = .data) (hb : b ≠ delim) :
    (sdTakeData b s).sdOk = true := by
  obtain ⟨hcode, hsize⟩ := position_data.1 hp
  obtain ⟨⟨-, hle⟩, hdata⟩ := State.sdOk_iff.1 h
  have hlt : s.sdSize < s.sdCode.toNat - 1 := lt_of_le_of_ne (hle hcode) hsize
  have hbuf : s.sdSize < 254 := by have := s.sdCode.isLt; omega
  refine State.sdOk_iff.2 ⟨⟨fun h0 => absurd h0 hcode, fun _ => hlt⟩, fun v hv => ?_⟩
  rw [sdData_sdTakeData hbuf, List.mem_append, List.mem_singleton] at hv
  obtain hv | rfl := hv
  · exact hdata v hv
  · exact hb

/-- The commands of SD and the wire rows keep R35. -/
theorem sdOk_of_sd (hu : i.unit = .sd) (hs : s.sdOk = true) (h : exec i s = .next t) : t.sdOk = true := by
  cases i with
  | sdReset => cases h; exact State.sdOk_of_size_zero rfl
  | sdSink b =>
    simp only [exec, execSdSink] at h
    split_ifs at h with hb hp <;> cases h
    · exact State.sdOk_of_size_zero rfl
    · exact State.sdOk_of_size_zero rfl
    · exact sdOk_sdTakeData hs (position_data.2 (not_or.1 hp)) hb
  | sdStop => cases h; exact State.sdOk_of_size_zero rfl
  | wDelim => obtain ⟨-, rfl⟩ := atPosition_next.1 h; exact State.sdOk_of_size_zero rfl
  | wFull => obtain ⟨-, rfl⟩ := atPosition_next.1 h; exact State.sdOk_of_size_zero rfl
  | wRun code => obtain ⟨-, rfl⟩ := atPosition_next.1 h; exact State.sdOk_of_size_zero rfl
  | wData data =>
    obtain ⟨hp, rfl⟩ := atPosition_next.1 h
    split
    · exact State.sdOk_of_size_zero rfl
    case isFalse hb => exact sdOk_sdTakeData hs hp hb
  | _ => simp [Instr.unit] at hu

/-- SE's commands leave SD's state, so R35 holds of it as before. -/
theorem sdOk_of_se (hu : i.unit = .se) (h : exec i s = .next t) : t.sdOk = s.sdOk := by
  have hfix : t.withSd s.sdCode s.sdSize s.sdBuf = t := fixed_of_ignored ((withSd_ignoredBySe _ _ _).exec hu) rfl h
  rw [← hfix]
  rfl

/-- SD's commands leave SE's state, so R31 holds of it as before. -/
theorem seOk_of_sd (hu : i.unit = .sd) (h : exec i s = .next t) : t.seOk = s.seOk := by
  have hfix : t.withSe s.seCnt s.seBuf = t := fixed_of_ignored ((withSe_ignoredBySd _ _).exec hu) rfl h
  rw [← hfix]
  rfl

theorem retOk_congr (hp : t.params = s.params) (hr : t.ret = s.ret) : t.retOk = s.retOk := by
  simp only [State.retOk, hp, hr]

/-- Every instruction keeps the invariant. -/
theorem exec_keeps_inv (hs : s.inv = true) (h : exec i s = .next t) : t.inv = true := by
  obtain ⟨hse, hsd, hmem, hret⟩ := State.inv_iff.1 hs
  obtain hu | hu := unit_bulk_or_streaming i
  · obtain ⟨r, hr, ⟨es, -, rfl⟩ | ⟨src, n, dst, cap, o, -, rfl⟩⟩ := bulk_next hu h
    · exact State.inv_iff.2 ⟨hse, hsd, hmem, decide_eq_true hr⟩
    · exact State.inv_iff.2 ⟨hse, hsd, Memory.wf_outBytes hmem dst cap 0 o, decide_eq_true hr⟩
  · obtain ⟨hm, hr⟩ := streaming_mem_ret hu h
    obtain ⟨hp, -⟩ := streaming_params_pending hu h
    have hhost : t.mem.wf = true ∧ t.retOk = true := ⟨hm ▸ hmem, (retOk_congr hp hr).trans hret⟩
    obtain hu | hu := hu
    · exact State.inv_iff.2 ⟨seOk_of_se hu hse h, (sdOk_of_se hu h).trans hsd, hhost⟩
    · exact State.inv_iff.2 ⟨(seOk_of_sd hu h).trans hse, sdOk_of_sd hu hsd h, hhost⟩

/-- What a step that answers a next state did: it waited, made a store of the host's, or ran an instruction (R63, R66, R242). -/
theorem step_next (h : step s = .next t) :
    t = s ∨ (∃ a b rest, t = (s.setPending rest).hostStore a b) ∨ ∃ i rest, exec i (s.setPending rest) = .next t := by
  unfold step at h
  split at h
  · cases h; exact .inl rfl
  · cases h; exact .inr (.inl ⟨_, _, _, rfl⟩)
  all_goals
    split at h
    · exact .inr (.inr ⟨_, _, h⟩)
    · cases h

/-- Settles O11: the three things a step can do each keep the invariant, which does not look at the stream. -/
theorem stepKeepsTheInvariant : Obligations.StepKeepsTheInvariant := by
  intro s t hs h
  obtain rfl | ⟨a, b, rest, rfl⟩ | ⟨i, rest, hexec⟩ := step_next h
  · exact hs
  · obtain ⟨hse, hsd, hmem, hret⟩ := State.inv_iff.1 hs
    exact State.inv_iff.2 ⟨hse, hsd, Memory.wf_write hmem, hret⟩
  · exact exec_keeps_inv (s := s.setPending rest) hs hexec

/-- Settles O9: each field is the one the reset state is defined with. -/
theorem resetHoldsTheSpecsValues : Obligations.ResetHoldsTheSpecsValues := ⟨rfl, rfl, rfl, rfl, rfl, rfl, rfl⟩

/-- Settles O10: both counts are 0, memory is empty and `RET` has no value. -/
theorem resetMeetsTheInvariant : Obligations.ResetMeetsTheInvariant :=
  State.inv_iff.2 ⟨State.seOk_of_cnt_zero rfl, State.sdOk_of_size_zero rfl, Memory.wf_nil, rfl⟩

/-- Settles O39: a code of 0 awaits; with any other, R35 leaves the size below `code - 1` or at it. -/
theorem exactlyOneLogicalState : Obligations.ExactlyOneLogicalState := by
  intro s hs
  obtain ⟨⟨-, hle⟩, -⟩ := State.sdOk_iff.1 hs
  simp only [State.awaitingCode, State.receivingBlock, State.blockComplete]
  by_cases hc : s.sdCode = 0x00#8
  · simp [hc]
  · obtain hlt | heq := lt_or_eq_of_le (hle hc)
    · simp [hc, hlt, hlt.ne]
    · simp [hc, heq]

/-! ### What a command appends to the record and stores in memory -/

/-- The record of `t` is that of `s` followed by emissions of the unit `u` (R41, R69). -/
def AppendsOf (u : CobsUnit) (s t : State) : Prop := ∃ es, t.sink = s.sink ++ es ∧ ∀ e ∈ es, e.unit = u

theorem AppendsOf.of_sink_eq {u : CobsUnit} (h : t.sink = s.sink) : AppendsOf u s t := ⟨[], by simpa using h, by simp⟩

theorem AppendsOf.one {e : Emission} (h : t.sink = s.sink ++ [e]) : AppendsOf e.unit s t := ⟨[e], h, by simp⟩

theorem AppendsOf.trans {u : CobsUnit} {s' : State} (h : AppendsOf u s s') (h' : AppendsOf u s' t) : AppendsOf u s t := by
  obtain ⟨es, hes, hu⟩ := h
  obtain ⟨es', hes', hu'⟩ := h'
  refine ⟨es ++ es', by rw [hes', hes, List.append_assoc], fun e he => ?_⟩
  exact (List.mem_append.1 he).elim (hu e) (hu' e)

theorem seFlushFull_appends (s : State) : AppendsOf .se s (seFlushFull s) := by
  unfold seFlushFull
  split
  · exact .one (sink_seFlush s)
  · exact .of_sink_eq rfl

theorem seTake_appends (b : Byte) (s : State) : AppendsOf .se s (seTake b s) := by
  unfold seTake
  split
  · exact .one (sink_seFlush s)
  · exact .of_sink_eq rfl

theorem sdFinalize_appends (s : State) : AppendsOf .sd s (sdFinalize s) := .one (sink_sdFinalize s)

theorem sink_sdImpliedZero (s : State) : (sdImpliedZero s).sink = s.sink := by
  unfold sdImpliedZero
  split <;> rfl

theorem sdTakeCode_appends (c : Byte) (s : State) : AppendsOf .sd s (sdTakeCode c s) := by
  unfold sdTakeCode sdRelease
  split
  · exact .one (e := .decode .sd _ 0 false) (congrArg (· ++ _) (sink_sdImpliedZero s))
  · exact .of_sink_eq rfl

theorem sdTakeData_appends (b : Byte) (s : State) : AppendsOf .sd s (sdTakeData b s) := .of_sink_eq rfl

theorem exec_appends (h : exec i s = .next t) : AppendsOf i.unit s t := by
  have hbulk : i.unit = .be ∨ i.unit = .bd → AppendsOf i.unit s t := by
    intro hu
    obtain ⟨r, -, ⟨es, hes, rfl⟩ | ⟨src, n, dst, cap, o, -, rfl⟩⟩ := bulk_next hu h
    · exact ⟨es, rfl, hes⟩
    · exact .of_sink_eq rfl
  cases i with
  | beEncSink | beEncBuf => exact hbulk (.inl rfl)
  | bdDecSink | bdDecBuf => exact hbulk (.inr rfl)
  | seReset => cases h; exact .of_sink_eq rfl
  | seSink b => cases h; exact (seFlushFull_appends s).trans (seTake_appends b _)
  | seStop => cases h; exact .one (e := .encode .se _) rfl
  | sdReset => cases h; exact .of_sink_eq rfl
  | sdSink b =>
    simp only [exec, execSdSink] at h
    split_ifs at h <;> cases h
    · exact sdFinalize_appends s
    · exact sdTakeCode_appends b s
    · exact sdTakeData_appends b s
  | sdStop => cases h; exact sdFinalize_appends s
  | wDelim => obtain ⟨-, rfl⟩ := atPosition_next.1 h; exact sdFinalize_appends s
  | wFull => obtain ⟨-, rfl⟩ := atPosition_next.1 h; exact sdTakeCode_appends _ s
  | wRun code => obtain ⟨-, rfl⟩ := atPosition_next.1 h; exact sdTakeCode_appends code s
  | wData data =>
    obtain ⟨-, rfl⟩ := atPosition_next.1 h
    split
    · exact sdFinalize_appends s
    · exact sdTakeData_appends data s

theorem exec_params_pending (h : exec i s = .next t) : t.params = s.params ∧ t.pending = s.pending := by
  obtain hu | hu := unit_bulk_or_streaming i
  · obtain ⟨r, -, ⟨es, -, rfl⟩ | ⟨src, n, dst, cap, o, -, rfl⟩⟩ := bulk_next hu h <;> exact ⟨rfl, rfl⟩
  · exact streaming_params_pending hu h

/-- Settles O14: the frame of the widths and the stream, and the emissions unit by unit. -/
theorem outputIsOnlyAppended : Obligations.OutputIsOnlyAppended := by
  intro i s t h
  obtain ⟨hparams, hpending⟩ := exec_params_pending h
  exact ⟨hparams, hpending, exec_appends h⟩

/-- Settles O15: of the bulk commands only the bounded-buffer ones store, and no output goes past `cap`. -/
theorem onlyBufferCommandsWriteMemory : Obligations.OnlyBufferCommandsWriteMemory := by
  intro i s t h
  obtain hu | hu := unit_bulk_or_streaming i
  · obtain ⟨r, -, ⟨es, -, rfl⟩ | ⟨src, n, dst, cap, o, hi, rfl⟩⟩ := bulk_next hu h
    · exact .inl rfl
    · exact .inr ⟨src, n, dst, cap, hi, rfl, fun a ha =>
        Memory.read_outBytes_outside s.mem dst cap 0 a o (by omega)⟩
  · exact .inl (streaming_mem_ret hu h).1

/-! ### The scan of the bulk encoder -/

theorem beFlushFull_ok {payload : List Byte} {w : BeWork} (h : w.Ok payload) :
    (beFlushFull payload w).Ok payload ∧ (beFlushFull payload w).i = w.i := by
  unfold beFlushFull
  split
  · exact ⟨h.restart w.i h.i_le, rfl⟩
  · exact ⟨h, rfl⟩

/-- The pending data is that of the block before, or nothing after a flush. -/
theorem pendingData_beFlushFull_subset (payload : List Byte) (w : BeWork) :
    pendingData payload (beFlushFull payload w) ⊆ pendingData payload w := by
  unfold beFlushFull
  split
  · simp [pendingData, slice]
  · exact List.Subset.refl _

/-- A turn of the scan on the byte at `i` adds that byte to the pending data, and only if it is not zero. -/
theorem mem_pendingData_beByte {payload : List Byte} {w : BeWork} (h : w.Ok payload) (hi : w.i < payload.length) {v : Byte}
    (hv : v ∈ pendingData payload (beByte payload w payload[w.i])) : v ∈ pendingData payload w ∨ v ≠ delim := by
  obtain ⟨hok, hwi⟩ := beFlushFull_ok h
  unfold beByte beTake at hv
  split at hv
  · simp [pendingData, slice] at hv
  case isFalse hz =>
    have hspan := hok.span
    have hpos := hok.code_pos
    simp only [pendingData, Nat.add_sub_cancel] at hv
    rw [show (beFlushFull payload w).code = (beFlushFull payload w).code - 1 + 1 by omega, slice_succ (by omega)] at hv
    simp only [hspan, hwi, List.mem_append, List.mem_singleton] at hv
    obtain hv | rfl := hv
    · exact .inl (pendingData_beFlushFull_subset payload w hv)
    · exact .inr hz

/-- The scan's invariant after the first `k` bytes of the payload. -/
theorem beScan_take_ok (payload : List Byte) (k : Nat) (hk : k ≤ payload.length) :
    ((payload.take k).foldl (beByte payload) beInit).Ok payload ∧ ((payload.take k).foldl (beByte payload) beInit).i = k ∧
      ∀ v ∈ pendingData payload ((payload.take k).foldl (beByte payload) beInit), v ≠ delim := by
  induction k with
  | zero => exact ⟨beInit_ok payload, rfl, by simp [pendingData, slice, beInit]⟩
  | succ k ih =>
    obtain ⟨hok, hi, hnz⟩ := ih (by omega)
    have hlast : payload.take (k + 1) = payload.take k ++ [payload[k]] := by simp
    rw [hlast, List.foldl_append, List.foldl_cons, List.foldl_nil]
    generalize (payload.take k).foldl (beByte payload) beInit = w at hok hi hnz
    subst hi
    obtain ⟨hok', hi'⟩ := beByte_ok hok hk
    exact ⟨hok', hi', fun v hv => (mem_pendingData_beByte hok hk hv).elim (hnz v) id⟩

/-- Settles O23: the working quantities of the scan after `k` bytes, its position being `k`. -/
theorem beScanKeepsItsWorkingQuantities : Obligations.BeScanKeepsItsWorkingQuantities := by
  intro payload k hk
  obtain ⟨hok, hi, hnz⟩ := beScan_take_ok payload k hk
  exact ⟨hi, hok.code_pos, hok.code_le, hok.span.trans hi, hnz⟩

end Sys2Proof.Machine
end

section
/-! PROOFS. Host memory (`spec/20_memory.md`): the host's own stores (R53, R62, R66), what a bulk command reads (R54, R55), and
that the bounded-buffer form of a bulk command stores what its sink form emits (R55, R110, R130). -/

namespace Sys2Proof.Machine

variable {s t u : State} {m : Memory} {refusal refusal' : Option Refusal} {src n dst cap r : Nat} {o : List Byte}
  {es es' : List Emission}

/-- Settles O8: the step is one `Memory.write`, and a read after a write is known at every address. -/
theorem hostStoreChangesOneByte : Obligations.HostStoreChangesOneByte := by
  intro s a b rest hm hp
  refine ⟨s.mem.write a b, ?_, Memory.wf_write hm, Memory.read_write_same hm, fun x hx => Memory.read_write_ne hx⟩
  rw [step, hp]
  rfl

/-! ### A bulk command on another memory with the same `SRC` -/

theorem State.source_setMem (h : ∀ k, k < n → m.read (src + k) = s.mem.read (src + k)) :
    (s.setMem m).source src n = s.source src n :=
  Memory.span_congr h

theorem sinkCommand_setMem :
    sinkCommand refusal es r (s.setMem m) = mapNext (fun t => t.setMem m) (sinkCommand refusal es r s) := by
  cases refusal <;> rfl

/-- After the same output into two memories, an address holds the same output byte in both, or no output in either. -/
theorem Memory.read_outBytes_both {m m' : Memory} (hm : m.wf = true) (hm' : m'.wf = true) (dst cap : Nat) (o : List Byte)
    (a : Nat) :
    (m'.outBytes dst cap 0 o).read a = (m.outBytes dst cap 0 o).read a ∨
      ((m'.outBytes dst cap 0 o).read a = m'.read a ∧ (m.outBytes dst cap 0 o).read a = m.read a) := by
  by_cases hout : a < dst + 0 ∨ dst + min cap (0 + o.length) ≤ a
  · exact .inr ⟨Memory.read_outBytes_outside m' dst cap 0 a o hout, Memory.read_outBytes_outside m dst cap 0 a o hout⟩
  · obtain ⟨k, rfl⟩ : ∃ k, a = dst + (0 + k) := ⟨a - dst, by omega⟩
    have hk : k < o.length := by omega
    have hc : 0 + k < cap := by omega
    exact .inl ((Memory.read_outBytes_inside hm' dst cap 0 k o hk hc).trans
      (Memory.read_outBytes_inside hm dst cap 0 k o hk hc).symm)

theorem bufCommand_setMem (hs : s.mem.wf = true) (hm : m.wf = true) (h : bufCommand refusal dst cap o r s = .next t) :
    ∃ m', bufCommand refusal dst cap o r (s.setMem m) = .next (t.setMem m') ∧
      ∀ a, m'.read a = t.mem.read a ∨ (m'.read a = m.read a ∧ t.mem.read a = s.mem.read a) := by
  obtain ⟨hr, rfl⟩ := bufCommand_next.1 h
  exact ⟨m.outBytes dst cap 0 o, bufCommand_next.2 ⟨hr, rfl⟩, Memory.read_outBytes_both hs hm dst cap o⟩

/-- Settles O16: the emissions, `RET` and the output are computed from the source, which is the same in both memories. -/
theorem bulkCommandsReadOnlySource : Obligations.BulkCommandsReadOnlySource := by
  intro s m src n dst cap hs hm hagree
  change exec _ (s.setMem m) = _ ∧ exec _ (s.setMem m) = _ ∧
    ∀ i, _ → ∀ t, exec i s = .next t → ∃ m', exec i (s.setMem m) = .next (t.setMem m') ∧ _
  have hsrc := State.source_setMem hagree
  refine ⟨?_, ?_, ?_⟩
  · simp only [exec, execBeEncSink, hsrc, State.params_setMem, sinkCommand_setMem]
    rfl
  · simp only [exec, execBdDecSink, hsrc, State.params_setMem, sinkCommand_setMem]
    rfl
  · rintro i (rfl | rfl) t h
    · simp only [exec, execBeEncBuf, hsrc, State.params_setMem]
      exact bufCommand_setMem hs hm h
    · simp only [exec, execBdDecBuf, hsrc, State.params_setMem]
      exact bufCommand_setMem hs hm h

/-! ### The two output modes -/

theorem chunks_append (es es' : List Emission) : chunks (es ++ es') = chunks es ++ chunks es' :=
  List.flatMap_append

theorem chunks_flatMap {α : Type} (l : List α) (f : α → List Emission) :
    chunks (l.flatMap f) = l.flatMap (fun x => chunks (f x)) :=
  List.flatMap_assoc

/-- The two emissions of a flush carry the bytes of its block (R112, R113). -/
theorem chunks_beEmissions (b : Block) : chunks (beEmissions b) = blockBytes b := by
  simp [chunks, beEmissions, Emission.bytes, blockBytes]

/-- The emissions of one output of the parse carry its decoded bytes, none for an empty span (R134, R141). -/
theorem chunks_bdOutEmissions (out : BdOut) : chunks (bdOutEmissions out) = bdOutBytes out := by
  fun_cases bdOutEmissions out <;> simp [chunks, Emission.bytes, bdOutBytes]

/-- The report of a truncated frame carries no bytes (R136). -/
theorem chunks_bdEndEmissions (e : BdEnd) : chunks (bdEndEmissions e) = [] := by
  cases e <;> rfl

/-- What `BE.ENC_SINK` emits is what `BE.ENC_BUF` outputs (R110). -/
theorem beOutput_eq_chunks (w : BeWork) : beOutput w = chunks (w.flushed.flatMap beEmissions) := by
  simp only [beOutput, chunks_flatMap, chunks_beEmissions]

/-- What `BD.DEC_SINK` emits is what `BD.DEC_BUF` outputs (R130). -/
theorem bdOutput_eq_chunks (w : BdWork) (e : BdEnd) :
    bdOutput w = chunks (w.out.flatMap bdOutEmissions ++ bdEndEmissions e) := by
  simp only [bdOutput, chunks_append, chunks_flatMap, chunks_bdOutEmissions, chunks_bdEndEmissions, List.append_nil]

/-- A bounded-buffer command whose output is the bytes that a sink-mode command emits, with the same `RET`. -/
theorem bufCommand_stores_chunks (hm : s.mem.wf = true) (ht : sinkCommand refusal es' r s = .next t)
    (hes : t.sink = s.sink ++ es) (hu : bufCommand refusal' dst cap (chunks es') r s = .next u) :
    u.ret = t.ret ∧
    (∀ k (h : k < (chunks es).length), k < cap → u.mem.read (dst + k) = (chunks es)[k]) ∧
    (∀ a, a < dst ∨ dst + min cap (chunks es).length ≤ a → u.mem.read a = s.mem.read a) := by
  obtain ⟨-, rfl⟩ := sinkCommand_next.1 ht
  obtain ⟨-, rfl⟩ := bufCommand_next.1 hu
  obtain rfl : es' = es := List.append_cancel_left hes
  refine ⟨rfl, fun k hk hc => ?_, fun a ha => ?_⟩
  · simpa using Memory.read_outBytes_inside hm dst cap 0 k (chunks es') hk (by omega)
  · exact Memory.read_outBytes_outside s.mem dst cap 0 a (chunks es') (by omega)

/-- Settles O31: in each unit the output of the buffer form is the chunks of the sink form's emissions. -/
theorem bufferModeStoresWhatSinkModeEmits : Obligations.BufferModeStoresWhatSinkModeEmits := by
  rintro s src n dst cap _ _ hm (⟨rfl, rfl⟩ | ⟨rfl, rfl⟩) t u es ht hes hu
  · rw [exec, execBeEncBuf, beOutput_eq_chunks] at hu
    exact bufCommand_stores_chunks hm ht hes hu
  · rw [exec, execBdDecBuf, bdOutput_eq_chunks _ (bdParse (s.source src n)).2] at hu
    exact bufCommand_stores_chunks hm ht hes hu

end Sys2Proof.Machine
end

section
/-! PROOFS. The encodings (`spec/30_encoding.md`): the decoder is the inverse of the encoder (R91 to R94), a wire byte is read by
SD's position (R82, R88), and a frame of well-formed blocks is what BE emits and what BD and SD decode (R80 to R86). -/

namespace Sys2Proof.Machine

variable {p : Params} {pos : Position} {i : Instr} {items rest : List Item} {s t : State} {c : Command} {code b : Byte}
  {d : List Byte}

/-! ### The command space (R91 to R94) -/

/-- An opcode byte is its two fields of R91. -/
theorem toNat_eq_unit_operation (op : Byte) : op.toNat = 16 * opUnit op + opOperation op := by
  have hlt := op.isLt
  simp only [opUnit, opOperation, BitVec.extractLsb'_toNat, Nat.shiftRight_eq_div_pow]
  omega

theorem commandOf_opcode (c : Command) : commandOf c.opcode = some c := by
  cases c <;> rfl

/-- Only the opcode byte of R92 selects a command. -/
theorem eq_opcode_of_commandOf {op : Byte} (h : commandOf op = some c) : op = c.opcode := by
  have hfields := toNat_eq_unit_operation op
  apply BitVec.eq_of_toNat_eq
  unfold commandOf at h
  split at h <;> cases h
  all_goals
    simp only [*]
    rfl

/-- When the operands `src`, `n` are read (R94). -/
theorem sinkOperands_eq_ok {mk : Nat → Nat → Instr} :
    sinkOperands p c mk items = .ok (i, rest) ↔
      ∃ src n, items = .value src :: .value n :: rest ∧ (p.isBase src && p.isSize n) = true ∧ i = mk src n := by
  constructor
  · intro h
    unfold sinkOperands at h
    split at h
    · split at h <;> cases h
      exact ⟨_, _, rfl, ‹_›, rfl⟩
    · cases h
  · rintro ⟨src, n, rfl, hfit, rfl⟩
    simp only [sinkOperands, if_pos hfit]

/-- When the operands `src`, `n`, `dst`, `cap` are read (R94). -/
theorem bufOperands_eq_ok {mk : Nat → Nat → Nat → Nat → Instr} :
    bufOperands p c mk items = .ok (i, rest) ↔
      ∃ src n dst cap, items = .value src :: .value n :: .value dst :: .value cap :: rest ∧
        (p.isBase src && p.isSize n && p.isBase dst && p.isSize cap) = true ∧ i = mk src n dst cap := by
  constructor
  · intro h
    unfold bufOperands at h
    split at h
    · split at h <;> cases h
      exact ⟨_, _, _, _, rfl, ‹_›, rfl⟩
    · cases h
  · rintro ⟨src, n, dst, cap, rfl, hfit, rfl⟩
    simp only [bufOperands, if_pos hfit]

/-- When the operand byte is read (R94). -/
theorem byteOperand_eq_ok {mk : Byte → Instr} :
    byteOperand c mk items = .ok (i, rest) ↔ ∃ b, items = .byte b :: rest ∧ i = mk b := by
  constructor
  · intro h
    unfold byteOperand at h
    split at h <;> cases h
    exact ⟨_, rfl, rfl⟩
  · rintro ⟨b, rfl, rfl⟩
    rfl

/-- The operands of a command are read only from the encoding of an instruction with that opcode and fitting operands. -/
theorem wf_encode_of_decodeOperands (h : decodeOperands p c items = .ok (i, rest)) :
    i.wf p = true ∧ i.readAt pos = true ∧ .byte c.opcode :: items = encode i ++ rest := by
  cases c with
  | beEncSink | bdDecSink =>
    obtain ⟨src, n, rfl, hfit, rfl⟩ := sinkOperands_eq_ok.1 h
    exact ⟨hfit, rfl, rfl⟩
  | beEncBuf | bdDecBuf =>
    obtain ⟨src, n, dst, cap, rfl, hfit, rfl⟩ := bufOperands_eq_ok.1 h
    exact ⟨hfit, rfl, rfl⟩
  | seSink | sdSink =>
    obtain ⟨b, rfl, rfl⟩ := byteOperand_eq_ok.1 h
    exact ⟨rfl, rfl, rfl⟩
  | seReset | seStop | sdReset | sdStop =>
    cases h
    exact ⟨rfl, rfl, rfl⟩

/-! ### The wire space (R82, R88) -/

/-- The three classes of R82 as a test of the byte. -/
theorem decodeWire_code (b : Byte) :
    decodeWire .code b = if b = delim then .wDelim else if b = codeFull then .wFull else .wRun b := by
  simp only [decodeWire, classify]
  split_ifs <;> rfl

/-- The row a byte is read as is well formed, selected by the position, and encoded as that byte. -/
theorem wf_encode_decodeWire (p : Params) (pos : Position) (b : Byte) :
    (decodeWire pos b).wf p = true ∧ (decodeWire pos b).readAt pos = true ∧ encode (decodeWire pos b) = [.wire b] := by
  cases pos with
  | data => exact ⟨rfl, rfl, rfl⟩
  | code =>
    rw [decodeWire_code]
    split_ifs with hdelim hfull
    · exact ⟨rfl, rfl, by rw [hdelim]; rfl⟩
    · exact ⟨rfl, rfl, by rw [hfull]; rfl⟩
    · exact ⟨by simp [Instr.wf, hdelim, hfull], rfl, rfl⟩

/-! ### The decoder and the encoder -/

/-- A byte of the command space is read exactly when it is an opcode of R92 and that command's operands follow. -/
theorem decode_byte (op : Byte) :
    decode p pos (.byte op :: items) = .ok (i, rest) ↔
      ∃ c, op = c.opcode ∧ decodeOperands p c items = .ok (i, rest) := by
  constructor
  · intro h
    cases hc : commandOf op with
    | none =>
      simp only [decode, hc] at h
      cases h
    | some c => exact ⟨c, eq_opcode_of_commandOf hc, by simpa only [decode, hc] using h⟩
  · rintro ⟨c, rfl, h⟩
    simpa only [decode, commandOf_opcode] using h

theorem decode_wire (b : Byte) : decode p pos (.wire b :: rest) = .ok (decodeWire pos b, rest) := rfl

/-- Settles O2: the opcode selects the command and the operands are read back; a wire row is read by its class and position. -/
theorem decodeOfEncodeIsTheInstruction : Obligations.DecodeOfEncodeIsTheInstruction := by
  intro p pos i rest hwf hpos
  cases i with
  | beEncSink src n => exact (decode_byte _).2 ⟨.beEncSink, rfl, sinkOperands_eq_ok.2 ⟨src, n, rfl, hwf, rfl⟩⟩
  | bdDecSink src n => exact (decode_byte _).2 ⟨.bdDecSink, rfl, sinkOperands_eq_ok.2 ⟨src, n, rfl, hwf, rfl⟩⟩
  | beEncBuf src n dst cap =>
    exact (decode_byte _).2 ⟨.beEncBuf, rfl, bufOperands_eq_ok.2 ⟨src, n, dst, cap, rfl, hwf, rfl⟩⟩
  | bdDecBuf src n dst cap =>
    exact (decode_byte _).2 ⟨.bdDecBuf, rfl, bufOperands_eq_ok.2 ⟨src, n, dst, cap, rfl, hwf, rfl⟩⟩
  | seSink b => exact (decode_byte _).2 ⟨.seSink, rfl, rfl⟩
  | sdSink b => exact (decode_byte _).2 ⟨.sdSink, rfl, rfl⟩
  | seReset => exact (decode_byte _).2 ⟨.seReset, rfl, rfl⟩
  | seStop => exact (decode_byte _).2 ⟨.seStop, rfl, rfl⟩
  | sdReset => exact (decode_byte _).2 ⟨.sdReset, rfl, rfl⟩
  | sdStop => exact (decode_byte _).2 ⟨.sdStop, rfl, rfl⟩
  | wDelim | wFull =>
    obtain rfl : pos = .code := by simpa [Instr.readAt] using hpos
    rfl
  | wRun code =>
    obtain rfl : pos = .code := by simpa [Instr.readAt] using hpos
    obtain ⟨hdelim, hfull⟩ : code ≠ delim ∧ code ≠ codeFull := by simpa [Instr.wf] using hwf
    rw [encode, List.singleton_append, decode_wire, decodeWire_code, if_neg hdelim, if_neg hfull]
  | wData data =>
    obtain rfl : pos = .data := by simpa [Instr.readAt] using hpos
    rfl

/-- Settles O3: the first item says which space is read, and both readings come from an encoding. -/
theorem decodeReadsOnlyEncodings : Obligations.DecodeReadsOnlyEncodings := by
  intro p pos items rest i h
  cases items with
  | nil => cases h
  | cons item tail =>
    cases item with
    | byte op =>
      obtain ⟨c, rfl, hops⟩ := (decode_byte op).1 h
      exact wf_encode_of_decodeOperands hops
    | wire b =>
      cases h
      obtain ⟨hwf, hpos, henc⟩ := wf_encode_decodeWire p pos b
      exact ⟨hwf, hpos, by rw [henc]; rfl⟩
    | value | hostWrite => cases h

/-- Settles O1: each written-out word is the encoding of its instruction, which decodes to it. -/
theorem decodeReadsTheWrittenOutWords : Obligations.DecodeReadsTheWrittenOutWords := by
  intro rest
  have hdec (pos : Position) (i : Instr) := decodeOfEncodeIsTheInstruction resetParams pos i rest
  exact ⟨hdec .code (.beEncSink 7 3) (by decide) rfl, hdec .code (.beEncBuf 7 3 9 5) (by decide) rfl,
    hdec .code (.bdDecSink 7 3) (by decide) rfl, hdec .code (.bdDecBuf 7 3 9 5) (by decide) rfl,
    hdec .code .seReset rfl rfl, hdec .code (.seSink 0x41#8) rfl rfl, hdec .code .seStop rfl rfl,
    hdec .code .sdReset rfl rfl, hdec .code (.sdSink 0xFF#8) rfl rfl, hdec .code .sdStop rfl rfl,
    hdec .code .wDelim rfl rfl, hdec .code .wFull rfl rfl, hdec .code (.wRun 0x05#8) (by decide) rfl,
    hdec .data (.wData 0x05#8) rfl rfl⟩

/-- Settles O5: by the tests that separate the classes. -/
theorem wireByteIsReadByPosition : Obligations.WireByteIsReadByPosition := by
  intro b
  change _ ∧ (_ ↔ b = delim) ∧ (_ ↔ b = codeFull) ∧ (_ ↔ b ≠ delim ∧ b ≠ codeFull) ∧ _
  have hne : delim ≠ codeFull := by decide
  rw [decodeWire_code]
  refine ⟨rfl, ?_⟩
  split_ifs with hdelim hfull
  · simp [hdelim, hne]
  · simp [hfull, hne.symm]
  · simp [hdelim, hfull]

/-! ### The step -/

/-- Settles O6: a stream that decodes begins with an item of one of the two spaces, so the step fetches. -/
theorem stepRunsTheDecodedCommand : Obligations.StepRunsTheDecodedCommand := by
  intro s i rest h
  unfold step State.fetch
  split
  case h_1 hp => rw [hp] at h; cases h
  case h_2 hp => rw [hp] at h; cases h
  all_goals rw [h]; rfl

/-- Settles O4: a byte that selects a command is one of the ten, and the fetch of any other names it. -/
theorem unassignedOpcodesAreRefused : Obligations.UnassignedOpcodesAreRefused := by
  intro s op rest hop hp
  have hnone : commandOf op = none := by
    cases hc : commandOf op with
    | none => rfl
    | some c =>
      obtain rfl := eq_opcode_of_commandOf hc
      revert hop
      cases c <;> decide
  simp only [step, State.fetch, hp, decode, hnone]

/-! ### SD at its two positions (R82, R88, R175) -/

theorem atPosition_selected {e : State} (h : s.position = pos) : atPosition pos e s = .next e := if_pos h

theorem atPosition_refused {e : State} (h : s.position ≠ pos) : atPosition pos e s = .refused .wirePosition := if_neg h

theorem exec_sdSink_delim (s : State) : exec (.sdSink delim) s = .next (sdFinalize s) := rfl

theorem exec_sdSink_of_code (hb : b ≠ delim) (hp : s.position = .code) : exec (.sdSink b) s = .next (sdTakeCode b s) :=
  (if_neg hb).trans (if_pos (position_code.1 hp))

theorem exec_sdSink_of_data (hb : b ≠ delim) (hp : s.position = .data) : exec (.sdSink b) s = .next (sdTakeData b s) :=
  (if_neg hb).trans (if_neg (not_or.2 (position_data.1 hp)))

/-- Settles O43: at either position the class of the byte names the branch of R175 that `SD.SINK` takes. -/
theorem wireRowsActAsSdSink : Obligations.WireRowsActAsSdSink := by
  intro s b
  cases hp : s.position with
  | data =>
    by_cases hb : b = delim
    · subst hb
      exact (atPosition_selected hp).trans (exec_sdSink_delim s).symm
    · rw [exec_sdSink_of_data hb hp]
      exact (atPosition_selected hp).trans (congrArg _ (if_neg hb))
  | code =>
    rw [decodeWire_code]
    split_ifs with hdelim hfull
    · subst hdelim
      exact (atPosition_selected hp).trans (exec_sdSink_delim s).symm
    · rw [exec_sdSink_of_code hdelim hp, hfull]
      exact atPosition_selected hp
    · rw [exec_sdSink_of_code hdelim hp]
      exact atPosition_selected hp

/-- Settles O45: each row tests for the position that selects it. -/
theorem wireRowsAreRefusedElsewhere : Obligations.WireRowsAreRefusedElsewhere := by
  refine fun s b => ⟨fun hp i hi => ?_, fun hp => atPosition_refused (by simp [hp])⟩
  have hne : s.position ≠ .code := by simp [hp]
  simp only [List.mem_cons, List.not_mem_nil, or_false] at hi
  obtain rfl | rfl | rfl := hi <;> exact atPosition_refused hne

/-- Nothing is missing of a frame that ends at a code position (R84, R173). -/
theorem sdLeft_of_code (hp : s.position = .code) : sdLeft s.sdCode s.sdSize = 0 := by
  unfold sdLeft
  split
  case isTrue hc =>
    have hsize := (position_code.1 hp).resolve_left hc
    omega
  case isFalse => rfl

theorem sdFinalize_eq {m : Nat} (h : sdLeft s.sdCode s.sdSize = m) :
    sdFinalize s = { s with sink := s.sink ++ [.decode .sd s.sdData m false], sdCode := 0x00#8, sdSize := 0 } := by
  subst h
  rfl

theorem sdTakeCode_awaiting (h : s.sdCode = 0x00#8) : sdTakeCode code s = { s with sdCode := code, sdSize := 0 } := by
  simp only [sdTakeCode, sdRelease, h, ne_eq, not_true, if_false]
  rfl

/-- A code after a full block releases all of the buffer, with no implied zero (R84, R175). -/
theorem sdTakeCode_after_full (h : s.sdCode = codeFull) (hp : s.position = .code) :
    sdTakeCode code s =
      { s with sink := s.sink ++ [.decode .sd s.sdBuf.toList 0 false], sdCode := code, sdSize := 0 } := by
  have hne : s.sdCode ≠ 0x00#8 := by rw [h]; decide
  have hsize : s.sdSize = 254 := by rw [(position_code.1 hp).resolve_left hne, h]; rfl
  have hdata : s.sdData = s.sdBuf.toList := by rw [State.sdData, hsize, take_full]
  have hzero : sdImpliedZero s = s := by simp [sdImpliedZero, sdAppendsZero, h]
  rw [sdTakeCode, sdRelease, if_pos hne, hzero]
  simp only [hdata]
  rfl

/-- A code after any other complete block releases its data and the implied zero (R84, R175). -/
theorem sdTakeCode_after_run (hne : s.sdCode ≠ 0x00#8) (hfull : s.sdCode ≠ codeFull) (hp : s.position = .code) :
    sdTakeCode code s =
      { s with
        sink := s.sink ++ [.decode .sd (s.sdData ++ [delim]) 0 false]
        sdBuf := s.sdBuf.setIfInBounds s.sdSize delim, sdCode := code, sdSize := 0 } := by
  have hsize := (position_code.1 hp).resolve_left hne
  have hlt : s.sdSize < 254 := by
    have hle := s.sdCode.isLt
    have h255 : s.sdCode.toNat ≠ 255 := fun h => hfull (BitVec.eq_of_toNat_eq h)
    omega
  have hzero : sdImpliedZero s = sdTakeData delim s := by simp [sdImpliedZero, sdAppendsZero, hfull, sdTakeData]
  rw [sdTakeCode, sdRelease, if_pos hne, hzero]
  simp only [sdData_sdTakeData hlt]
  rfl

/-- Settles O44: at a code position by what SD holds of the block before, at a data position by the zero test. -/
theorem wireRowsRunAtTheirPosition : Obligations.WireRowsRunAtTheirPosition := by
  intro s _
  refine ⟨fun hp => ⟨?_, fun c i hi => ?_⟩, fun hp d => ?_⟩
  · exact (atPosition_selected hp).trans (congrArg _ (sdFinalize_eq (sdLeft_of_code hp)))
  · have hexec : exec i s = .next (sdTakeCode c s) := by
      obtain ⟨rfl, rfl⟩ | ⟨-, -, rfl⟩ := hi <;> exact atPosition_selected hp
    rw [hexec]
    split_ifs with hawait hfull
    · rw [sdTakeCode_awaiting hawait]
    · rw [sdTakeCode_after_full hfull hp]
    · exact congrArg _ (sdTakeCode_after_run hawait hfull hp)
  · have hend := sdFinalize_eq (if_pos (position_data.1 hp).1)
    exact (atPosition_selected hp).trans (congrArg _ (if_congr Iff.rfl hend rfl))

/-! ### The bytes of one block in SD (R88) -/

/-- SD holds a code and these of its data bytes (R32 to R34). -/
structure State.Received (s : State) (code : Byte) (d : List Byte) : Prop where
  code_eq : s.sdCode = code
  size_eq : s.sdSize = d.length
  data_eq : s.sdData = d

theorem received_sdTakeCode (code : Byte) (s : State) : (sdTakeCode code s).Received code [] := ⟨rfl, rfl, rfl⟩

theorem State.Received.sdTakeData (h : s.Received code d) (hd : d.length < 254) (b : Byte) :
    (sdTakeData b s).Received code (d ++ [b]) where
  code_eq := h.code_eq
  size_eq := by simp [h.size_eq]
  data_eq := by rw [sdData_sdTakeData (h.size_eq ▸ hd), h.data_eq]

theorem State.Received.position_code (h : s.Received code d) (hd : d.length + 1 = code.toNat) : s.position = .code :=
  Machine.position_code.2 (.inr (by rw [h.size_eq, h.code_eq]; omega))

theorem State.Received.position_data (h : s.Received code d) (hd : d.length + 1 < code.toNat) : s.position = .data := by
  refine Machine.position_data.2 ⟨fun h0 => ?_, by rw [h.size_eq, h.code_eq]; omega⟩
  rw [h.code_eq] at h0
  simp [h0] at hd

theorem execAll_cons {is : List Instr} (h : exec i s = .next t) : execAll (i :: is) s = execAll is t := by
  simp only [execAll, h]

theorem execAll_append {is js : List Instr} (h : execAll is s = .next t) : execAll (is ++ js) s = execAll js t := by
  induction is generalizing s with
  | nil => cases h; rfl
  | cons i is ih =>
    rw [List.cons_append]
    cases hi : exec i s with
    | next u =>
      rw [execAll_cons hi] at h ⊢
      exact ih h
    | fault | refused => simp only [execAll, hi] at h; cases h

/-- Data bytes that the code still calls for join the bytes received. -/
theorem execAll_sdSink_data {ds : List Byte} (h : s.Received code d) (hds : ∀ v ∈ ds, v ≠ delim)
    (hlen : d.length + ds.length + 1 ≤ code.toNat) :
    ∃ t, execAll (ds.map Instr.sdSink) s = .next t ∧ t.Received code (d ++ ds) ∧ t.sink = s.sink := by
  induction ds generalizing s d with
  | nil => exact ⟨s, rfl, by simpa using h, rfl⟩
  | cons v vs ih =>
    rw [List.length_cons] at hlen
    have hcode := code.isLt
    have hv := exec_sdSink_of_data (hds v (by simp)) (h.position_data (by omega))
    obtain ⟨t, ht, hrec, hsink⟩ := ih (h.sdTakeData (by omega) v) (fun x hx => hds x (by simp [hx])) (by simp; omega)
    exact ⟨t, (execAll_cons hv).trans ht, by simpa using hrec, hsink⟩

/-- A code at a code position and data bytes it calls for: the block before is released and these are what SD holds. -/
theorem execAll_sdSink_code_data {ds : List Byte} (hp : s.position = .code) (hc : code ≠ delim) (hds : ∀ v ∈ ds, v ≠ delim)
    (hlen : ds.length + 1 ≤ code.toNat) :
    ∃ t, execAll (.sdSink code :: ds.map Instr.sdSink) s = .next t ∧ t.Received code ds ∧
      t.sink = (sdTakeCode code s).sink := by
  rw [execAll_cons (exec_sdSink_of_code hc hp)]
  exact execAll_sdSink_data (received_sdTakeCode code s) hds (by simpa using hlen)

/-- Settles O42: the count of the bytes taken decides the position, and the end of a frame leaves SD awaiting a code. -/
theorem positionFollowsTheBytesRead : Obligations.PositionFollowsTheBytesRead := by
  refine ⟨fun s c ds _ hp hc hds hlen => ?_, fun s => ⟨sdFinalize s, rfl, position_code.2 (.inl rfl)⟩⟩
  obtain ⟨t, ht, hrec, -⟩ := execAll_sdSink_code_data hp hc hds hlen
  refine ⟨t, ht, ?_, hrec.code_eq, hrec.size_eq, hrec.data_eq⟩
  split_ifs with hfull
  · exact hrec.position_code hfull
  · exact hrec.position_data (lt_of_le_of_ne hlen hfull)

/-! ### What the blocks of the grammar decode to (R84) -/

theorem Block.wf_iff {b : Block} : b.wf = true ↔ b.sized = true ∧ ∀ v ∈ b.data, v ≠ delim := by
  simp only [Block.wf, Bool.and_eq_true, List.all_eq_true, bne_iff_ne]

theorem code_ne_delim_of_sized {b : Block} (hb : b.sized = true) : b.code ≠ delim := by
  intro h
  have hsize := Block.sized_iff.1 hb
  simp [h, delim] at hsize

theorem wireBytes_cons (b : Block) (bs : List Block) : wireBytes (b :: bs) = blockBytes b ++ wireBytes bs := rfl

/-- The chunks of emissions that report no condition are their runs. -/
theorem chunks_runs (u : CobsUnit) (runs : List (List Byte)) :
    chunks (runs.map fun r => Emission.decode u r 0 false) = runs.flatten := by
  rw [chunks, List.flatMap_map]
  exact List.flatMap_id'

theorem missing_runs (u : CobsUnit) (runs : List (List Byte)) :
    ∀ e ∈ runs.map (fun r => Emission.decode u r 0 false), e.missing = 0 := by
  simp [Emission.missing]

/-- The runs BD emits for the blocks are their payload. -/
theorem flatten_bdRuns {bs : List Block} (hbs : ∀ b ∈ bs, b.sized = true) : (bdRuns bs).flatten = payloadOf bs := by
  have hemit := bdEmissions_parse bs .exhausted hbs rfl
  rw [← bdOutput_parse bs .exhausted hbs rfl, bdOutput_eq_chunks, hemit, chunks_append, chunks_runs]
  exact (List.append_nil _).symm

/-- `BD.DEC_SINK` on blocks and one of the endings of R133. -/
theorem exec_bdDecSink {bs : List Block} {e : FrameEnd} {src n : Nat} (hbs : ∀ b ∈ bs, b.sized = true) (he : e.valid = true)
    (hspan : s.mem.span src n = wireBytes bs ++ e.bytes) (hn : n < 2 ^ s.params.sizeW) :
    exec (.bdDecSink src n) s =
      .next ((s.emit ((bdRuns bs).map (fun r => .decode .bd r 0 false) ++ e.report)).setRet (e.ret bs)) := by
  refine sinkCommand_next.2 ⟨sinkRefusal_none.2 ⟨hn, hn⟩, ?_⟩
  rw [State.source, hspan, bdEmissions_parse bs e hbs he, bdRet_parse bs e hbs he]

/-- A code after a complete block makes one emission: the block's data with the implied zero it calls for (R84, R175). -/
theorem sink_sdTakeCode_after {b : Block} (hb : b.sized = true) (h : s.Received b.code b.data) :
    (sdTakeCode code s).sink = s.sink ++ [.decode .sd (b.data ++ if b.code = codeFull then [] else [delim]) 0 false] := by
  have hp := h.position_code (Block.sized_iff.1 hb)
  by_cases hfull : b.code = codeFull
  · have hlen : s.sdSize = 254 := by
      have hsize := Block.sized_iff.1 hb
      rw [h.size_eq]
      simpa [hfull, codeFull] using hsize
    have hdata : s.sdBuf.toList = b.data := by rw [← h.data_eq, State.sdData, hlen, take_full]
    rw [sdTakeCode_after_full (h.code_eq.trans hfull) hp, if_pos hfull, List.append_nil, hdata]
  · rw [sdTakeCode_after_run (h.code_eq ▸ code_ne_delim_of_sized hb) (h.code_eq ▸ hfull) hp, if_neg hfull, h.data_eq]

/-- SD takes the bytes of a block at a code position. -/
theorem execAll_sdSink_block {b : Block} (hp : s.position = .code) (hb : b.wf = true) :
    ∃ t, execAll ((blockBytes b).map Instr.sdSink) s = .next t ∧ t.Received b.code b.data ∧
      t.sink = (sdTakeCode b.code s).sink := by
  obtain ⟨hsized, hdata⟩ := Block.wf_iff.1 hb
  exact execAll_sdSink_code_data hp (code_ne_delim_of_sized hsized) hdata (Block.sized_iff.1 hsized).le

/-- After a complete block, SD takes the bytes of more blocks: what it has emitted and what it then holds is the payload. -/
theorem execAll_sdSink_blocks_after (bs : List Block) {b : Block} (hb : b.sized = true) (h : s.Received b.code b.data)
    (hbs : ∀ x ∈ bs, x.wf = true) :
    ∃ (t : State) (runs : List (List Byte)), execAll ((wireBytes bs).map Instr.sdSink) s = .next t ∧ t.position = .code ∧
      t.sink = s.sink ++ runs.map (fun r => .decode .sd r 0 false) ∧ runs.flatten ++ t.sdData = payloadOf (b :: bs) := by
  have hp := h.position_code (Block.sized_iff.1 hb)
  induction bs generalizing s b with
  | nil => exact ⟨s, [], rfl, hp, by simp, h.data_eq⟩
  | cons c bs ih =>
    have hc := hbs c (by simp)
    have hcs := (Block.wf_iff.1 hc).1
    obtain ⟨u, hu, hrec, hsink⟩ := execAll_sdSink_block hp hc
    rw [sink_sdTakeCode_after hb h] at hsink
    obtain ⟨t, runs, ht, htp, htsink, hflat⟩ := ih hcs hrec (fun x hx => hbs x (by simp [hx]))
      (hrec.position_code (Block.sized_iff.1 hcs))
    refine ⟨t, (b.data ++ if b.code = codeFull then [] else [delim]) :: runs, ?_, htp, ?_, ?_⟩
    · rw [wireBytes_cons, List.map_append, execAll_append hu, ht]
    · rw [htsink, hsink, List.map_cons, List.append_assoc, List.singleton_append]
    · rw [List.flatten_cons, List.append_assoc, hflat, payloadOf]

/-- Awaiting a code, SD takes the bytes of a list of blocks. -/
theorem execAll_sdSink_blocks {bs : List Block} (hcode : s.sdCode = 0x00#8) (hsize : s.sdSize = 0)
    (hbs : ∀ b ∈ bs, b.wf = true) :
    ∃ (t : State) (runs : List (List Byte)), execAll ((wireBytes bs).map Instr.sdSink) s = .next t ∧ t.position = .code ∧
      t.sink = s.sink ++ runs.map (fun r => .decode .sd r 0 false) ∧ runs.flatten ++ t.sdData = payloadOf bs := by
  have hp : s.position = .code := position_code.2 (.inl hcode)
  cases bs with
  | nil => exact ⟨s, [], rfl, hp, by simp, by simp [State.sdData, hsize, payloadOf]⟩
  | cons b bs =>
    have hb := hbs b (by simp)
    obtain ⟨u, hu, hrec, hsink⟩ := execAll_sdSink_block hp hb
    rw [sdTakeCode_awaiting hcode] at hsink
    obtain ⟨t, runs, ht, htp, htsink, hflat⟩ :=
      execAll_sdSink_blocks_after bs (Block.wf_iff.1 hb).1 hrec (fun x hx => hbs x (by simp [hx]))
    refine ⟨t, runs, ?_, htp, by rw [htsink, hsink], hflat⟩
    rw [wireBytes_cons, List.map_append, execAll_append hu, ht]

/-- A frame of blocks in SD, with the delimiter or ended by `SD.STOP`: its emissions are the payload, with nothing missing. -/
theorem execAll_sdSink_frame {bs : List Block} {is : List Instr} (hcode : s.sdCode = 0x00#8) (hsize : s.sdSize = 0)
    (hbs : ∀ b ∈ bs, b.wf = true)
    (his : is = (wireBytes bs ++ [delim]).map Instr.sdSink ∨ is = (wireBytes bs).map Instr.sdSink ++ [.sdStop]) :
    ∃ (t : State) (runs : List (List Byte)), execAll is s = .next (sdFinalize t) ∧ runs.flatten = payloadOf bs ∧
      (sdFinalize t).sink = s.sink ++ runs.map (fun r => .decode .sd r 0 false) := by
  obtain ⟨t, runs, ht, hp, hsink, hflat⟩ := execAll_sdSink_blocks hcode hsize hbs
  refine ⟨t, runs ++ [t.sdData], ?_, by simpa using hflat, ?_⟩
  · obtain rfl | rfl := his
    · rw [List.map_append, execAll_append ht]
      rfl
    · rw [execAll_append ht]
      rfl
  · rw [sink_sdFinalize, sdLeft_of_code hp, hsink, List.map_append, List.append_assoc]
    rfl

/-- Settles O48: in BD by the parse of blocks, with the delimiter or at the end of the input; in SD block by block. -/
theorem decodersYieldThePayloadOfTheBlocks : Obligations.DecodersYieldThePayloadOfTheBlocks := by
  refine fun bs hbs => ⟨fun s src n hn hspan => ?_, fun s is hcode hsize his => ?_⟩
  · have hsized : ∀ b ∈ bs, b.sized = true := fun b hb => (Block.wf_iff.1 (hbs b hb)).1
    obtain ⟨e, he, hrep, hspan⟩ : ∃ e : FrameEnd, e.valid = true ∧ e.report = [] ∧
        s.mem.span src n = wireBytes bs ++ e.bytes := by
      obtain h | h := hspan
      · exact ⟨.delimiter [], rfl, rfl, h⟩
      · exact ⟨.exhausted, rfl, rfl, h.trans (List.append_nil _).symm⟩
    have hexec := exec_bdDecSink hsized he hspan hn
    rw [hrep, List.append_nil] at hexec
    exact ⟨_, _, hexec, rfl, (chunks_runs _ _).trans (flatten_bdRuns hsized), missing_runs _ _⟩
  · obtain ⟨t, runs, ht, hflat, hsink⟩ := execAll_sdSink_frame hcode hsize hbs his
    exact ⟨_, _, ht, hsink, (chunks_runs _ _).trans hflat, missing_runs _ _⟩

/-! ### The blocks BE emits (R80, R85, R119) -/

theorem encBlocksFrom_ne_nil (pend rest : List Byte) : encBlocksFrom pend rest ≠ [] := by
  induction rest generalizing pend with
  | nil => simp [encBlocksFrom]
  | cons v vs ih =>
    rw [encBlocksFrom]
    split_ifs
    · simp
    · simp
    · simp
    · exact ih (pend ++ [v])

theorem toNat_code_blockOf (hd : d.length ≤ 254) : (blockOf d).code.toNat = d.length + 1 := by
  simp only [blockOf, BitVec.toNat_ofNat]
  omega

theorem wf_blockOf (hd : d.length ≤ 254) (hnz : ∀ v ∈ d, v ≠ delim) : (blockOf d).wf = true :=
  Block.wf_iff.2 ⟨Block.sized_iff.2 (toNat_code_blockOf hd).symm, hnz⟩

/-- A block is full exactly when its code is `0xFF` (R83). -/
theorem code_blockOf_eq_codeFull (hd : d.length ≤ 254) : (blockOf d).code = codeFull ↔ d.length = maxData := by
  rw [← BitVec.toNat_inj, toNat_code_blockOf hd]
  exact Nat.add_right_cancel_iff (n := 1) (k := 254)

/-- Every block is as long as its code says and holds no zero, the pending block's data included. -/
theorem wf_of_mem_encBlocksFrom {pend : List Byte} (rest : List Byte) (hlen : pend.length ≤ 254) (hnz : ∀ v ∈ pend, v ≠ delim) :
    ∀ b ∈ encBlocksFrom pend rest, b.wf = true := by
  induction rest generalizing pend with
  | nil => simpa [encBlocksFrom] using wf_blockOf hlen hnz
  | cons v vs ih =>
    have hpend := wf_blockOf hlen hnz
    have hempty : (blockOf []).wf = true := wf_blockOf (by simp) (by simp)
    have hnil := ih (pend := []) (by simp) (by simp)
    rw [encBlocksFrom]
    split_ifs with hfull hv hv
    · simpa [hpend, hempty] using hnil
    · simpa [hpend] using ih (pend := [v]) (by simp) (by simpa using hv)
    · simpa [hpend] using hnil
    · have hroom : pend.length + 1 ≤ 254 := lt_of_le_of_ne hlen hfull
      exact ih (by simpa using hroom) (by simpa [or_imp, forall_and] using And.intro hnz hv)

/-- The payload of a block and more blocks after it (R84). -/
theorem payloadOf_blockOf_cons (hd : d.length ≤ 254) {bs : List Block} (hbs : bs ≠ []) :
    payloadOf (blockOf d :: bs) = d ++ (if d.length = maxData then [] else [delim]) ++ payloadOf bs := by
  obtain ⟨c, cs, rfl⟩ := List.exists_cons_of_ne_nil hbs
  simp only [payloadOf, code_blockOf_eq_codeFull hd]
  rfl

/-- The blocks stand for the pending data and the rest of the payload (R119, R193). -/
theorem payloadOf_encBlocksFrom (rest : List Byte) {pend : List Byte} (hlen : pend.length ≤ 254) :
    payloadOf (encBlocksFrom pend rest) = pend ++ rest := by
  induction rest generalizing pend with
  | nil => simp [encBlocksFrom, payloadOf, blockOf]
  | cons v vs ih =>
    have hnil := ih (pend := []) (by simp)
    rw [encBlocksFrom]
    split_ifs with hfull hv hv
    · rw [payloadOf_blockOf_cons hlen (by simp), payloadOf_blockOf_cons (by simp) (encBlocksFrom_ne_nil _ _), hnil]
      simp [hfull, hv, maxData]
    · rw [payloadOf_blockOf_cons hlen (encBlocksFrom_ne_nil _ _), ih (by simp)]
      simp [hfull]
    · rw [payloadOf_blockOf_cons hlen (encBlocksFrom_ne_nil _ _), hnil]
      simp [hfull, hv]
    · have hroom : pend.length + 1 ≤ 254 := lt_of_le_of_ne hlen hfull
      rw [ih (by simpa using hroom), List.append_assoc, List.singleton_append]

/-- Settles O22: BE emits the blocks of the payload, which stand for it. -/
theorem encodingIsAGrammarFrameOfThePayload : Obligations.EncodingIsAGrammarFrameOfThePayload := by
  intro s t src n es h hes
  obtain ⟨-, rfl⟩ := sinkCommand_next.1 h
  obtain rfl := List.append_cancel_left hes
  refine ⟨encBlocks (s.source src n), encBlocksFrom_ne_nil _ _, wf_of_mem_encBlocksFrom _ (by simp) (by simp), ?_,
    payloadOf_encBlocksFrom _ (by simp)⟩
  rw [← beOutput_eq_chunks, beOutput_beScan, enc]

end Sys2Proof.Machine
end

section
/-! PROOFS. The bulk encoder (`spec/40_bulk_encoder.md`): the whole next state of its two commands against the index-free encoding
(R111 to R115), and the closed form of the number of blocks and of the size (R89, R118). -/

namespace Sys2Proof.Machine

variable {s : State} {src n dst cap : Nat} {pend r : List Byte} {rs : List (List Byte)}

/-! ### The next states of the two commands -/

/-- `BE.ENC_SINK` on an admitted input (R111 to R113, R115, R204). -/
theorem exec_beEncSink (hn : beBound n < 2 ^ s.params.sizeW) :
    exec (.beEncSink src n) s = .next
      ((s.emit ((encBlocks (s.source src n)).flatMap beEmissions)).setRet (enc (s.source src n)).length) := by
  have hrefusal := sinkRefusal_none.2 ⟨(le_beBound n).trans_lt hn, hn⟩
  rw [exec, execBeEncSink, sinkCommand_next, beScan_flushed, beScan_total]
  exact ⟨hrefusal, rfl⟩

/-- `BE.ENC_BUF` on an admitted input with disjoint `SRC` and `DST` (R60, R114, R204). -/
theorem exec_beEncBuf (hn : beBound n < 2 ^ s.params.sizeW) (hcap : cap < 2 ^ s.params.sizeW) (hd : disjoint src n dst cap) :
    exec (.beEncBuf src n dst cap) s = .next
      ((s.setMem (s.mem.outBytes dst cap 0 (enc (s.source src n)))).setRet (enc (s.source src n)).length) := by
  have hrefusal := bufRefusal_none.2 ⟨(sizes_fit (le_beBound n)).2 ⟨hn, hcap⟩, regionsShareByte_eq_false.2 hd⟩
  rw [exec, execBeEncBuf, bufCommand_next, beOutput_beScan, beScan_total]
  exact ⟨hrefusal, rfl⟩

/-- Settles O20: the scan flushes the blocks of the payload, two emissions each. -/
theorem beSinkEmitsEachBlockTwice : Obligations.BeSinkEmitsEachBlockTwice := fun _ _ _ hn => exec_beEncSink hn

/-- Settles O21: the output is the encoding, stored from offset 0 of `DST`. -/
theorem beBufStoresTheEncodingUpToCap : Obligations.BeBufStoresTheEncodingUpToCap := by
  intro s src n dst cap hm hn hcap hd
  refine ⟨_, exec_beEncBuf hn hcap hd, fun k hk hc => ?_, fun a ha => ?_⟩
  · simpa [State.source] using Memory.read_outBytes_inside hm dst cap 0 k _ hk (by omega)
  · exact Memory.read_outBytes_outside s.mem dst cap 0 a _ (by simpa [State.source] using ha)

/-! ### The zero-free runs of a payload and the splits they force (R118) -/

theorem zeroFreeRuns_ne_nil (payload : List Byte) : zeroFreeRuns payload ≠ [] := by
  fun_cases zeroFreeRuns payload <;> simp

/-- Bytes other than zero lengthen the first run. -/
theorem zeroFreeRuns_append (hp : ∀ v ∈ pend, v ≠ delim) {rest : List Byte} (h : zeroFreeRuns rest = r :: rs) :
    zeroFreeRuns (pend ++ rest) = (pend ++ r) :: rs := by
  induction pend with
  | nil => exact h
  | cons v vs ih =>
    obtain ⟨hv, hvs⟩ := List.forall_mem_cons.1 hp
    simp only [List.cons_append, zeroFreeRuns, if_neg hv, ih hvs]

theorem fullSplits_cons (r : List Byte) (h : rs ≠ []) : fullSplits (r :: rs) = r.length / 254 + fullSplits rs := by
  obtain ⟨q, qs, rfl⟩ := List.exists_cons_of_ne_nil h
  rfl

/-- A run that ends at a zero. -/
theorem fullSplits_append_delim (hp : ∀ v ∈ pend, v ≠ delim) (rest : List Byte) :
    fullSplits (zeroFreeRuns (pend ++ delim :: rest)) = pend.length / 254 + fullSplits (zeroFreeRuns rest) := by
  have hcut : zeroFreeRuns (delim :: rest) = [] :: zeroFreeRuns rest := rfl
  rw [zeroFreeRuns_append hp hcut, List.append_nil, fullSplits_cons pend (zeroFreeRuns_ne_nil rest)]

/-- A run that ends with the payload. -/
theorem fullSplits_of_no_delim (hp : ∀ v ∈ pend, v ≠ delim) : fullSplits (zeroFreeRuns pend) = (pend.length - 1) / 254 := by
  have hlast := zeroFreeRuns_append hp (rest := []) rfl
  rw [List.append_nil] at hlast
  rw [hlast]
  rfl

/-- A full block before a byte that is not zero splits its run once. -/
theorem fullSplits_full_append (hp : ∀ v ∈ pend, v ≠ delim) (hfull : pend.length = 254) {v : Byte} (hv : v ≠ delim)
    (rest : List Byte) : fullSplits (zeroFreeRuns (pend ++ v :: rest)) = 1 + fullSplits (zeroFreeRuns (v :: rest)) := by
  obtain ⟨r, rs, hr⟩ := List.exists_cons_of_ne_nil (zeroFreeRuns_ne_nil rest)
  have hrun : zeroFreeRuns (v :: rest) = (v :: r) :: rs := zeroFreeRuns_append (pend := [v]) (by simpa using hv) hr
  rw [zeroFreeRuns_append hp hrun, hrun]
  cases rs with
  | nil =>
    change ((pend ++ v :: r).length - 1) / 254 = 1 + ((v :: r).length - 1) / 254
    simp only [List.length_append, List.length_cons]
    omega
  | cons q qs =>
    simp only [fullSplits_cons _ (List.cons_ne_nil q qs), List.length_append]
    omega

/-! ### The number of blocks and their size (R89, R118) -/

/-- A zero ends a block, and so does each split of a run; one block is pending at the end. -/
theorem length_encBlocksFrom (rest : List Byte) (hlen : pend.length ≤ 254) (hp : ∀ v ∈ pend, v ≠ delim) :
    (encBlocksFrom pend rest).length = rest.count delim + 1 + fullSplits (zeroFreeRuns (pend ++ rest)) := by
  induction rest generalizing pend with
  | nil =>
    rw [encBlocksFrom, List.append_nil, fullSplits_of_no_delim hp, List.length_singleton, List.count_nil]
    omega
  | cons v vs ih =>
    have hnil := ih (pend := []) (by simp) (by simp)
    rw [encBlocksFrom]
    split_ifs with hfull hv hv
    · subst hv
      simp only [List.length_cons, hnil, List.count_cons_self, fullSplits_append_delim hp, hfull, maxData, List.nil_append]
      omega
    · have hone := ih (pend := [v]) (by simp) (by simpa using hv)
      simp only [List.length_cons, hone, List.count_cons_of_ne hv, fullSplits_full_append hp hfull hv, List.singleton_append]
      omega
    · subst hv
      have hroom : pend.length / 254 = 0 := Nat.div_eq_of_lt (lt_of_le_of_ne hlen hfull)
      simp only [List.length_cons, hnil, List.count_cons_self, fullSplits_append_delim hp, hroom, List.nil_append]
      omega
    · have hroom : pend.length + 1 ≤ 254 := lt_of_le_of_ne hlen hfull
      rw [ih (by simpa using hroom) (by simpa [or_imp, forall_and] using And.intro hp hv), List.append_assoc,
        List.singleton_append, List.count_cons_of_ne hv]

/-- Every block adds its code to the payload, and every zero of the payload is left out. -/
theorem length_wireBytes_encBlocksFrom (pend rest : List Byte) :
    (wireBytes (encBlocksFrom pend rest)).length + rest.count delim =
      pend.length + rest.length + (encBlocksFrom pend rest).length := by
  induction rest generalizing pend with
  | nil =>
    have hempty : (wireBytes []).length = 0 := rfl
    simp [encBlocksFrom, length_wireBytes_blockOf_cons, hempty]
  | cons v vs ih =>
    have hnil := ih []
    have hone := ih [v]
    have hjoin := ih (pend ++ [v])
    simp only [List.length_append, List.length_cons, List.length_nil] at hnil hone hjoin
    rw [encBlocksFrom]
    split_ifs with hfull hv hv
    · subst hv
      simp only [length_wireBytes_blockOf_cons, List.length_cons, List.length_nil, List.count_cons_self]
      omega
    · simp only [length_wireBytes_blockOf_cons, List.length_cons, List.count_cons_of_ne hv]
      omega
    · subst hv
      simp only [length_wireBytes_blockOf_cons, List.length_cons, List.count_cons_self]
      omega
    · simp only [List.length_cons, List.count_cons_of_ne hv]
      omega

/-- `k = Z + 1 + S` (R118). -/
theorem length_encBlocks (payload : List Byte) :
    (encBlocks payload).length = payload.count delim + 1 + fullSplits (zeroFreeRuns payload) :=
  length_encBlocksFrom payload (pend := []) (by simp) (by simp)

/-- `RET = N + 1 + S` (R118). -/
theorem length_enc (payload : List Byte) : (enc payload).length = payload.length + 1 + fullSplits (zeroFreeRuns payload) := by
  have hsize : (enc payload).length + payload.count delim = 0 + payload.length + (encBlocks payload).length :=
    length_wireBytes_encBlocksFrom [] payload
  have hblocks := length_encBlocks payload
  omega

/-- The bound of R89 on `S`, from that on the result. -/
theorem fullSplits_le (payload : List Byte) : fullSplits (zeroFreeRuns payload) ≤ (payload.length - 1) / 254 := by
  have hle := beScan_total_le payload
  rw [beScan_total, length_enc, beBound_eq] at hle
  omega

theorem length_flatMap_beEmissions (bs : List Block) : (bs.flatMap beEmissions).length = 2 * bs.length := by
  simp [List.length_flatMap, beEmissions, Nat.mul_comm]

/-- Settles O25: the blocks of the payload counted, and the bytes of the encoding from that count. -/
theorem encodingSizeIsTheClosedForm : Obligations.EncodingSizeIsTheClosedForm := by
  intro s src n hn
  have hlen : (s.source src n).length = n := s.length_source src n
  have hret := length_enc (s.source src n)
  have hbound := fullSplits_le (s.source src n)
  rw [hlen] at hret hbound
  refine ⟨_, _, exec_beEncSink hn, congrArg some hret, rfl, ?_, hbound⟩
  rw [length_flatMap_beEmissions, length_encBlocks]
  rfl

end Sys2Proof.Machine
end

section
/-! PROOFS. The bulk decoder (`spec/41_bulk_decoder.md`): the whole next state of its two commands on every input (R130 to R143),
and the bound on the turns of the parse (R131, R205). -/

namespace Sys2Proof.Machine

variable {s : State} {src n dst cap fuel : Nat} {f : List Byte} {w : BdWork}

/-! ### The next states of the two commands -/

/-- `BD.DEC_BUF` on blocks and one of the endings of R133, with disjoint `SRC` and `DST` (R60, R135, R137). -/
theorem exec_bdDecBuf {bs : List Block} {e : FrameEnd} (hbs : ∀ b ∈ bs, b.sized = true) (he : e.valid = true)
    (hspan : s.mem.span src n = wireBytes bs ++ e.bytes) (hn : n < 2 ^ s.params.sizeW) (hcap : cap < 2 ^ s.params.sizeW)
    (hd : disjoint src n dst cap) :
    exec (.bdDecBuf src n dst cap) s =
      .next ((s.setMem (s.mem.outBytes dst cap 0 (payloadOf bs))).setRet (e.ret bs)) := by
  refine bufCommand_next.2 ⟨bufRefusal_none.2 ⟨⟨hn, hcap, hn⟩, regionsShareByte_eq_false.2 hd⟩, ?_⟩
  rw [State.source, hspan, bdOutput_parse bs e hbs he, bdRet_parse bs e hbs he]

/-- Settles O26: the input taken apart into blocks and an ending, and the parse of them. -/
theorem bdSinkDecodesEveryInput : Obligations.BdSinkDecodesEveryInput := by
  intro s src n hn
  obtain ⟨bs, e, hbs, he, hspan⟩ := blocks_then_end (s.mem.span src n)
  exact ⟨bs, e, hbs, he, hspan, exec_bdDecSink hbs he hspan hn⟩

/-- Settles O27: the input taken apart as for O26; the output is the blocks' payload, stored from offset 0 of `DST`. -/
theorem bdBufDecodesEveryInput : Obligations.BdBufDecodesEveryInput := by
  intro s src n dst cap hm hn hcap hd
  obtain ⟨bs, e, hbs, he, hspan⟩ := blocks_then_end (s.mem.span src n)
  refine ⟨bs, e, _, hbs, he, hspan, exec_bdDecBuf hbs he hspan hn hcap hd, fun k hk hc => ?_, fun a ha => ?_⟩
  · simpa using Memory.read_outBytes_inside hm dst cap 0 k _ hk (by omega)
  · exact Memory.read_outBytes_outside s.mem dst cap 0 a _ (by omega)

/-! ### The turns of the parse -/

/-- A complete block moves the read position past its data. -/
theorem i_bdBlock (f : List Byte) (c : Byte) (w : BdWork) : (bdBlock f c w).i = w.i + need c := by
  cases h : w.prevFull <;> simp [bdBlock, bdImpliedZero, h]

/-- With the input used up no turn changes anything. -/
theorem bdLoop_exhausted (h : f.length ≤ w.i) : bdLoop f fuel w = (w, .exhausted) := by
  cases fuel with
  | zero => rfl
  | succ fuel => exact if_neg h.not_gt

/-- A turn for each byte still to be read is enough: a turn that goes on has read at least its code byte. -/
theorem bdLoop_add (more : Nat) (h : f.length ≤ w.i + fuel) : bdLoop f (fuel + more) w = bdLoop f fuel w := by
  induction fuel generalizing w with
  | zero => rw [bdLoop_exhausted h, bdLoop_exhausted h]
  | succ fuel ih =>
    have hturn (c : Byte) : bdLoop f (fuel + more) (bdBlock f c { w with i := w.i + 1 }) =
        bdLoop f fuel (bdBlock f c { w with i := w.i + 1 }) := by
      refine ih ?_
      simp only [i_bdBlock]
      omega
    rw [Nat.succ_add]
    simp only [bdLoop, hturn]

/-- Settles O30: the parse starts with more turns than its input has bytes. -/
theorem bdParseEndsWithinItsInput : Obligations.BdParseEndsWithinItsInput := fun _ more => bdLoop_add more (by omega)

end Sys2Proof.Machine
end

section
/-! PROOFS. The streaming encoder (`spec/42_stream_encoder.md`): the next state of each of its commands (R152 to R154), that the
streaming commands complete in every state (R155, R178), and how much one of them emits (R153, R156, R175, R183). -/

namespace Sys2Proof.Machine

variable {P : Emission → Prop} {i : Instr} {s t : State} {b : Byte} {k : Nat}

/-! ### The next states of the commands of SE -/

/-- Settles O32: the two commands write these fields and no other. -/
theorem resetCommandsWriteOnlyTheCounters : Obligations.ResetCommandsWriteOnlyTheCounters := fun _ => ⟨rfl, rfl⟩

/-- Settles O34: the code heads the chunk that the delimiter ends. -/
theorem seStopEmitsTheLastBlockAndTheDelimiter : Obligations.SeStopEmitsTheLastBlockAndTheDelimiter := fun _ => rfl

/-- The first test of R153 emits a full pending block: the code of a full block and all of the buffer. -/
theorem seFlushFull_of_full (h : s.seCnt = 254) :
    seFlushFull s = { s with sink := s.sink ++ [.encode .se (codeFull :: s.seBuf.toList)], seCnt := 0 } := by
  have hcode : s.seCode = codeFull := by rw [State.seCode, h]; rfl
  have hdata : s.seData = s.seBuf.toList := by rw [State.seData, h, take_full]
  refine (if_pos h).trans ?_
  rw [seFlush, hcode, hdata]
  rfl

theorem seFlushFull_of_room (h : s.seCnt ≠ 254) : seFlushFull s = s := if_neg h

theorem seTake_zero (hb : b = delim) : seTake b s = seFlush s := if_pos hb

theorem seTake_data (hb : b ≠ delim) :
    seTake b s = { s with seBuf := s.seBuf.setIfInBounds s.seCnt b, seCnt := s.seCnt + 1 } := if_neg hb

/-- Settles O33: by the two tests of R153, whether the pending block is full and whether the byte is a zero. -/
theorem seSinkTakesOneByte : Obligations.SeSinkTakesOneByte := by
  intro s b _
  have hexec : exec (.seSink b) s = .next (seTake b (seFlushFull s)) := rfl
  rw [hexec]
  split_ifs with hfull hzero hzero
  · rw [seTake_zero hzero, seFlushFull_of_full hfull, seFlush, State.emit, List.append_assoc]
    rfl
  · rw [seTake_data hzero, seFlushFull_of_full hfull]
    rfl
  · rw [seTake_zero hzero, seFlushFull_of_room hfull]
    rfl
  · rw [seTake_data hzero, seFlushFull_of_room hfull]

/-! ### Every streaming command completes -/

/-- `SD.SINK` completes at either position, whatever its byte (R178). -/
theorem exec_sdSink_completes (s : State) (b : Byte) : ∃ t, exec (.sdSink b) s = .next t := by
  by_cases hb : b = delim
  · exact ⟨_, hb ▸ exec_sdSink_delim s⟩
  · cases hp : s.position with
    | code => exact ⟨_, exec_sdSink_of_code hb hp⟩
    | data => exact ⟨_, exec_sdSink_of_data hb hp⟩

/-- Settles O17: only `SD.SINK` looks at the state, and each of its branches answers a next state. -/
theorem streamingCommandsAlwaysComplete : Obligations.StreamingCommandsAlwaysComplete := by
  intro s b
  simp only [List.forall_mem_cons]
  exact ⟨⟨_, rfl⟩, ⟨_, rfl⟩, ⟨_, rfl⟩, ⟨_, rfl⟩, exec_sdSink_completes s b, ⟨_, rfl⟩,
    fun _ h => absurd h List.not_mem_nil⟩

/-! ### How much a streaming command emits -/

/-- The record of `t` is that of `s` followed by at most `k` emissions, each of which meets `P`. -/
def EmitsAtMost (k : Nat) (P : Emission → Prop) (s t : State) : Prop :=
  ∃ es, t.sink = s.sink ++ es ∧ es.length ≤ k ∧ ∀ e ∈ es, P e

theorem EmitsAtMost.of_sink_eq (h : t.sink = s.sink) : EmitsAtMost k P s t := ⟨[], by simpa using h, by simp, by simp⟩

theorem EmitsAtMost.one {e : Emission} (h : t.sink = s.sink ++ [e]) (he : P e) : EmitsAtMost (k + 1) P s t :=
  ⟨[e], h, by simp, by simpa using he⟩

theorem EmitsAtMost.trans {k' : Nat} {s' : State} (h : EmitsAtMost k P s s') (h' : EmitsAtMost k' P s' t) :
    EmitsAtMost (k + k') P s t := by
  obtain ⟨es, hes, hlen, hP⟩ := h
  obtain ⟨es', hes', hlen', hP'⟩ := h'
  refine ⟨es ++ es', by rw [hes', hes, List.append_assoc], ?_, fun e he => (List.mem_append.1 he).elim (hP e) (hP' e)⟩
  rw [List.length_append]
  exact Nat.add_le_add hlen hlen'

/-- The appended emissions are the only list that the record of `t` has after that of `s`. -/
theorem EmitsAtMost.appended {es : List Emission} (h : EmitsAtMost k P s t) (hes : t.sink = s.sink ++ es) :
    es.length ≤ k ∧ ∀ e ∈ es, P e := by
  obtain ⟨es', hes', hbound⟩ := h
  obtain rfl : es = es' := List.append_cancel_left (hes.symm.trans hes')
  exact hbound

/-- What R153, R154 and R156 say of an emission of SE: at most a full block and the delimiter, headed by a code. -/
def SeBounded (e : Emission) : Prop := e.bytes.length ≤ 256 ∧ ∃ c rest, e.bytes = c :: rest ∧ c ≠ 0x00#8

/-- What R183 says of an emission of SD: no more than the buffer holds. -/
def SdBounded (e : Emission) : Prop := e.bytes.length ≤ 254

theorem State.length_seData_le (s : State) : s.seData.length ≤ 254 := by
  simp [State.seData]

theorem State.length_sdData_le (s : State) : s.sdData.length ≤ 254 := by
  simp [State.sdData]

/-- The code of the pending block is at most 255, so it does not wrap to zero (R31, R150). -/
theorem State.seCode_ne_zero (h : s.seOk = true) : s.seCode ≠ 0x00#8 := by
  obtain ⟨hcnt, -⟩ := State.seOk_iff.1 h
  intro h0
  have := congrArg BitVec.toNat h0
  simp only [State.seCode, BitVec.toNat_ofNat] at this
  omega

/-- The code, the pending data and at most one byte more are within SE's bounds. -/
theorem seBounded_block (h : s.seOk = true) {tail : List Byte} (htail : tail.length ≤ 1) :
    SeBounded (.encode .se (s.seCode :: (s.seData ++ tail))) := by
  refine ⟨?_, _, _, rfl, State.seCode_ne_zero h⟩
  have := s.length_seData_le
  simp only [Emission.bytes, List.length_cons, List.length_append]
  omega

theorem seFlush_emits (h : s.seOk = true) : EmitsAtMost 1 SeBounded s (seFlush s) :=
  .one (sink_seFlush s) (by simpa using seBounded_block h (tail := []) (by simp))

theorem seFlushFull_emits (h : s.seOk = true) : EmitsAtMost 1 SeBounded s (seFlushFull s) := by
  unfold seFlushFull
  split
  · exact seFlush_emits h
  · exact .of_sink_eq rfl

theorem seTake_emits (b : Byte) (h : s.seOk = true) : EmitsAtMost 1 SeBounded s (seTake b s) := by
  unfold seTake
  split
  · exact seFlush_emits h
  · exact .of_sink_eq rfl

/-- A command of SE makes at most two emissions: `SE.SINK` one in each of its two tests (R153). -/
theorem se_emits (hu : i.unit = .se) (hs : s.seOk = true) (h : exec i s = .next t) : EmitsAtMost 2 SeBounded s t := by
  cases i with
  | seReset => cases h; exact .of_sink_eq rfl
  | seSink b => cases h; exact (seFlushFull_emits hs).trans (seTake_emits b (seOk_seFlushFull hs).1)
  | seStop => cases h; exact .one rfl (seBounded_block hs (tail := [delim]) le_rfl)
  | _ => simp [Instr.unit] at hu

/-- What a command of SD or a wire row can do: reset, end the frame, take a code or take a data byte (R174 to R176). -/
theorem sd_next (hu : i.unit = .sd) (h : exec i s = .next t) :
    t = (s.setSdCode 0x00#8).setSdSize 0 ∨ t = sdFinalize s ∨ (∃ c, t = sdTakeCode c s) ∨ ∃ b, t = sdTakeData b s := by
  cases i with
  | sdReset => cases h; exact .inl rfl
  | sdSink b =>
    simp only [exec, execSdSink] at h
    split_ifs at h <;> cases h
    · exact .inr (.inl rfl)
    · exact .inr (.inr (.inl ⟨b, rfl⟩))
    · exact .inr (.inr (.inr ⟨b, rfl⟩))
  | sdStop => cases h; exact .inr (.inl rfl)
  | wDelim => exact .inr (.inl (atPosition_next.1 h).2)
  | wFull => exact .inr (.inr (.inl ⟨_, (atPosition_next.1 h).2⟩))
  | wRun code => exact .inr (.inr (.inl ⟨code, (atPosition_next.1 h).2⟩))
  | wData data =>
    obtain ⟨-, rfl⟩ := atPosition_next.1 h
    split
    · exact .inr (.inl rfl)
    · exact .inr (.inr (.inr ⟨data, rfl⟩))
  | _ => simp [Instr.unit] at hu

theorem sdTakeCode_emits (c : Byte) (s : State) : EmitsAtMost 1 SdBounded s (sdTakeCode c s) := by
  unfold sdTakeCode sdRelease
  split
  · exact .one (e := .decode .sd _ 0 false) (congrArg (· ++ _) (sink_sdImpliedZero s)) (sdImpliedZero s).length_sdData_le
  · exact .of_sink_eq rfl

/-- A command of SD makes at most one emission, of bytes of its buffer (R174 to R176). -/
theorem sd_emits (hu : i.unit = .sd) (h : exec i s = .next t) : EmitsAtMost 1 SdBounded s t := by
  obtain rfl | rfl | ⟨c, rfl⟩ | ⟨b, rfl⟩ := sd_next hu h
  · exact .of_sink_eq rfl
  · exact .one (sink_sdFinalize s) s.length_sdData_le
  · exact sdTakeCode_emits c s
  · exact .of_sink_eq rfl

/-- Settles O46: by the unit of the command; the bound of SE is the one that needs its invariant. -/
theorem streamingEmissionsAreBounded : Obligations.StreamingEmissionsAreBounded :=
  fun _ _ _ _ hse _ h hes => ⟨fun hu => (se_emits hu hse h).appended hes, fun hu => (sd_emits hu h).appended hes⟩

end Sys2Proof.Machine
end

section
/-! PROOFS. The streaming decoder (`spec/43_stream_decoder.md`): the next state of `SD.SINK` and `SD.STOP` (R173, R175, R176), the
missing count at its boundaries (R177), and the next logical state (R172). -/

namespace Sys2Proof.Machine

variable {s : State} {b : Byte}

/-! ### The logical states and SD's position (R35, R88, R171) -/

theorem State.receivingBlock_iff : s.receivingBlock = true ↔ s.sdCode ≠ 0x00#8 ∧ s.sdSize < s.sdCode.toNat - 1 := by
  simp only [State.receivingBlock, Bool.and_eq_true, bne_iff_ne, decide_eq_true_eq]

theorem State.blockComplete_iff : s.blockComplete = true ↔ s.sdCode ≠ 0x00#8 ∧ s.sdSize = s.sdCode.toNat - 1 := by
  simp only [State.blockComplete, Bool.and_eq_true, bne_iff_ne, decide_eq_true_eq]

/-- SD never holds more data than its code declares, so it is at a data position exactly when it is inside a block. -/
theorem position_data_iff_receivingBlock (h : s.sdOk = true) : s.position = .data ↔ s.receivingBlock = true := by
  obtain ⟨⟨-, hle⟩, -⟩ := State.sdOk_iff.1 h
  rw [position_data, State.receivingBlock_iff]
  exact and_congr_right fun hcode => ⟨lt_of_le_of_ne (hle hcode), ne_of_lt⟩

theorem position_code_iff_not_receivingBlock (h : s.sdOk = true) : s.position = .code ↔ s.receivingBlock = false := by
  rw [← Bool.not_eq_true, ← position_data_iff_receivingBlock h]
  cases s.position <;> simp

/-! ### The next states of `SD.SINK` and `SD.STOP` -/

theorem exec_sdStop (s : State) : exec .sdStop s = .next (sdFinalize s) := rfl

/-- The formula of R173 with its cases the other way round. -/
theorem sdLeft_eq_ite (code : Byte) (size : Nat) :
    sdLeft code size = if code = 0x00#8 then 0 else code.toNat - size - 1 := ite_not ..

/-- Settles O37: both commands are the finalize action of R173. -/
theorem sdStopEndsTheFrame : Obligations.SdStopEndsTheFrame := fun s =>
  ⟨congrArg _ (sdFinalize_eq (sdLeft_eq_ite _ _)), (exec_sdSink_delim s).trans (exec_sdStop s).symm⟩

/-- Settles O36: the cases of R175 are the zero test, then the position, then the code of the block before. -/
theorem sdSinkTakesOneByte : Obligations.SdSinkTakesOneByte := by
  intro s b hok
  by_cases hzero : b = 0x00#8
  · subst hzero
    rw [if_pos rfl]
    exact congrArg _ (sdFinalize_eq (sdLeft_eq_ite _ _))
  rw [if_neg hzero]
  split_ifs with hawait hroom hfull
  · rw [exec_sdSink_of_code hzero (position_code.2 (.inl hawait)), sdTakeCode_awaiting hawait]
  · exact exec_sdSink_of_data hzero (position_data.2 ⟨hawait, hroom.ne⟩)
  all_goals
    have hp : s.position = .code := by
      rw [position_code_iff_not_receivingBlock hok, ← Bool.not_eq_true, State.receivingBlock_iff]
      exact fun h => hroom h.2
  · rw [exec_sdSink_of_code hzero hp, sdTakeCode_after_full hfull hp]
  · exact (exec_sdSink_of_code hzero hp).trans (congrArg _ (sdTakeCode_after_run hawait hfull hp))

/-! ### The missing count at the boundaries -/

/-- A code other than 0 gives the missing count `code - size - 1`, also where the code is known by its number (R173). -/
theorem sdLeft_of_pos {code : Byte} (h : 1 ≤ code.toNat) (size : Nat) : sdLeft code size = code.toNat - size - 1 :=
  if_pos fun h0 => by simp [h0] at h

/-- Settles O38: each boundary is an instance of the formula of R173. -/
theorem leftValuesAtTheBoundaries : Obligations.LeftValuesAtTheBoundaries := by
  intro s i hi
  have hexec : exec i s = .next (sdFinalize s) := by
    obtain rfl | rfl := hi
    · exact exec_sdStop s
    · exact exec_sdSink_delim s
  refine ⟨sdFinalize s, _, _, hexec, sink_sdFinalize s, ?_, ?_, ?_, ?_⟩
  · rintro ⟨hcode, -⟩
    exact sdLeft_of_code (position_code.2 (.inl hcode))
  · rintro ⟨-, hsize⟩
    exact sdLeft_of_code (position_code.2 (.inr hsize))
  · rintro ⟨hcode, hsize⟩
    rw [sdLeft_of_pos (by omega)]
    omega
  · rintro ⟨hcode, hsize⟩
    rw [sdLeft_of_pos hcode]
    omega

/-! ### The next logical state -/

theorem awaitingCode_sdFinalize (s : State) : (sdFinalize s).awaitingCode = true := rfl

theorem blockComplete_sdTakeCode_one (s : State) : (sdTakeCode 0x01#8 s).blockComplete = true := rfl

/-- A code that declares data leaves SD inside its block (R172). -/
theorem receivingBlock_sdTakeCode (s : State) (hb : 2 ≤ b.toNat) : (sdTakeCode b s).receivingBlock = true := by
  rw [State.receivingBlock_iff, sdCode_sdTakeCode, sdSize_sdTakeCode]
  exact ⟨fun h0 => by simp [h0] at hb, by omega⟩

/-- A data byte before the last one declared leaves SD inside the block (R172). -/
theorem receivingBlock_sdTakeData (hs : s.receivingBlock = true) (hsize : s.sdSize < s.sdCode.toNat - 2) :
    (sdTakeData b s).receivingBlock = true := by
  rw [State.receivingBlock_iff] at hs ⊢
  exact ⟨hs.1, by rw [sdSize_sdTakeData, sdCode_sdTakeData]; omega⟩

/-- The last data byte declared completes the block (R172). -/
theorem blockComplete_sdTakeData (hs : s.receivingBlock = true) (hsize : s.sdSize = s.sdCode.toNat - 2) :
    (sdTakeData b s).blockComplete = true := by
  rw [State.receivingBlock_iff] at hs
  rw [State.blockComplete_iff]
  exact ⟨hs.1, by rw [sdSize_sdTakeData, sdCode_sdTakeData]; omega⟩

/-- Settles O40: by the zero test and the position, which the logical state of `s` decides. -/
theorem logicalStatesFollowTheTable : Obligations.LogicalStatesFollowTheTable := by
  intro s b hok
  refine ⟨⟨_, rfl, rfl⟩, ⟨_, exec_sdStop s, awaitingCode_sdFinalize s⟩, ?_⟩
  by_cases hb : b = delim
  · subst hb
    exact ⟨_, exec_sdSink_delim s, by simp [awaitingCode_sdFinalize, delim]⟩
  · cases hr : s.receivingBlock with
    | false =>
      refine ⟨_, exec_sdSink_of_code hb ((position_code_iff_not_receivingBlock hok).2 hr), fun h => absurd h hb, ?_, ?_, ?_⟩
      · rintro ⟨rfl, -⟩
        exact ⟨blockComplete_sdTakeCode_one s, rfl, rfl⟩
      · exact fun h => ⟨receivingBlock_sdTakeCode s h.1, rfl, rfl⟩
      · simp
    | true =>
      refine ⟨_, exec_sdSink_of_data hb ((position_data_iff_receivingBlock hok).2 hr), fun h => absurd h hb, by simp, by simp,
        ?_, ?_⟩
      · rintro ⟨-, -, hsize⟩
        exact ⟨receivingBlock_sdTakeData hr hsize, rfl⟩
      · rintro ⟨-, -, hsize⟩
        obtain ⟨-, hlt⟩ := State.receivingBlock_iff.1 hr
        exact ⟨blockComplete_sdTakeData hr hsize, by rw [sdSize_sdTakeData]; omega⟩

end Sys2Proof.Machine
end

section
/-! PROOFS. The laws across the units (`spec/44_cross_unit_laws.md`): decoding restores what was encoded (R191, R194, R198), the
encoders emit no zero inside a frame (R192), SE and BE emit the same bytes (R195), a frame cut inside a block is detected
everywhere (R196), and decoding never lengthens (R199). -/

namespace Sys2Proof.Machine

variable {s t : State} {m : Memory} {src n dst cap k : Nat} {b : Byte} {payload : List Byte} {bs : List Block}
  {es : List Emission}

/-! ### The blocks of a payload -/

theorem wf_of_mem_encBlocks (payload : List Byte) : ∀ b ∈ encBlocks payload, b.wf = true :=
  wf_of_mem_encBlocksFrom payload (by simp) (by simp)

theorem sized_of_mem_encBlocks (payload : List Byte) : ∀ b ∈ encBlocks payload, b.sized = true := fun b hb =>
  (Block.wf_iff.1 (wf_of_mem_encBlocks payload b hb)).1

theorem payloadOf_encBlocks (payload : List Byte) : payloadOf (encBlocks payload) = payload :=
  payloadOf_encBlocksFrom payload (by simp)

theorem length_enc_source_le (s : State) (src n : Nat) : (enc (s.source src n)).length ≤ beBound n := by
  simpa only [beScan_total, State.length_source] using beScan_total_le (s.source src n)

/-- The encoding is blocks and the end of the input, the frame is blocks and the delimiter; neither ending reports anything. -/
theorem blocks_then_end_of_enc_or_frame {f : List Byte} (h : f = frame payload ∨ f = enc payload) :
    ∃ e : FrameEnd, e.valid = true ∧ e.report = [] ∧ f = wireBytes (encBlocks payload) ++ e.bytes := by
  obtain rfl | rfl := h
  · exact ⟨.delimiter [], rfl, rfl, rfl⟩
  · exact ⟨.exhausted, rfl, rfl, (List.append_nil _).symm⟩

/-! ### Reading a region back -/

/-- The output that fits the capacity is what the region then holds (R55, R56). -/
theorem Memory.span_outBytes (hm : m.wf = true) {o : List Byte} (hcap : o.length ≤ cap) :
    (m.outBytes dst cap 0 o).span dst o.length = o := by
  refine List.ext_getElem (Memory.length_span ..) fun k hk hko => ?_
  rw [Memory.getElem_span]
  simpa using Memory.read_outBytes_inside hm dst cap 0 k o hko (by omega)

/-- With no capacity nothing is stored (R101, R114). -/
theorem Memory.outBytes_cap_zero (m : Memory) (dst total : Nat) (o : List Byte) : m.outBytes dst 0 total o = m := by
  induction o generalizing total with
  | nil => rfl
  | cons v vs ih => exact ih (total + 1)

/-- A byte stored right behind a region lengthens what is read there by that byte. -/
theorem Memory.span_write_end (hm : m.wf = true) : (m.write (dst + n) b).span dst (n + 1) = m.span dst n ++ [b] := by
  have hbefore : (m.write (dst + n) b).span dst n = m.span dst n :=
    Memory.span_congr fun k hk => Memory.read_write_ne (by omega)
  have hat : (m.write (dst + n) b).span (dst + n) 1 = [b] := congrArg (· :: []) (Memory.read_write_same hm)
  rw [Memory.span_append, hbefore, hat]

/-! ### Round trips (R191, R194) -/

/-- `BD.DEC_BUF` on the frame of a payload that fits the capacity. -/
theorem exec_bdDecBuf_frame (hm : s.mem.wf = true) (hspan : s.mem.span src n = frame payload) (hn : n < 2 ^ s.params.sizeW)
    (hcap : cap < 2 ^ s.params.sizeW) (hd : disjoint src n dst cap) (hfit : payload.length ≤ cap) :
    ∃ t, exec (.bdDecBuf src n dst cap) s = .next t ∧ t.ret = some payload.length ∧
      t.mem.span dst payload.length = payload := by
  have hexec := exec_bdDecBuf (e := .delimiter []) (sized_of_mem_encBlocks payload) rfl hspan hn hcap hd
  rw [FrameEnd.ret, payloadOf_encBlocks] at hexec
  exact ⟨_, hexec, rfl, Memory.span_outBytes hm hfit⟩

/-- Settles O47: the blocks of a payload stand for it, and each decoder yields what the blocks stand for. -/
theorem roundTripOfEveryPayload : Obligations.RoundTripOfEveryPayload := by
  refine fun payload => ⟨fun s src n f hf hspan hn => ?_, fun s src n dst cap => exec_bdDecBuf_frame,
    fun s is hcode hsize his => ?_⟩
  · obtain ⟨e, he, hreport, rfl⟩ := blocks_then_end_of_enc_or_frame hf
    have hsized := sized_of_mem_encBlocks payload
    have hexec := exec_bdDecSink hsized he hspan hn
    rw [hreport, List.append_nil] at hexec
    refine ⟨_, _, hexec, rfl, ?_, by simp⟩
    rw [chunks_runs, flatten_bdRuns hsized, payloadOf_encBlocks]
  · obtain ⟨t, runs, ht, hflat, hsink⟩ := execAll_sdSink_frame hcode hsize (wf_of_mem_encBlocks payload) his
    refine ⟨_, _, ht, hsink, ?_, by simp, rfl, rfl⟩
    rw [chunks_runs, hflat, payloadOf_encBlocks]

/-- `BE.ENC_BUF` with capacity for the whole encoding stores it (R114, R194). -/
theorem exec_beEncBuf_fill (hm : s.mem.wf = true) (hn : beBound n < 2 ^ s.params.sizeW)
    (hd : disjoint src n dst (enc (s.source src n)).length) :
    ∃ t, exec (.beEncBuf src n dst (enc (s.source src n)).length) s = .next t ∧ t.params = s.params ∧
      t.ret = some (enc (s.source src n)).length ∧ t.mem.wf = true ∧
      t.mem.span dst (enc (s.source src n)).length = enc (s.source src n) :=
  ⟨_, exec_beEncBuf hn ((length_enc_source_le s src n).trans_lt hn) hd, rfl, rfl, Memory.wf_outBytes hm ..,
    Memory.span_outBytes hm le_rfl⟩

/-- Settles O50: the measured size is the encoding's length, which the filled region holds; with the delimiter it is a frame. -/
theorem measureThenFillThenDecodeRestoresThePayload : Obligations.MeasureThenFillThenDecodeRestoresThePayload := by
  intro s src n dst out cap hm hbound hcap hfit
  have hn : beBound n + 1 < 2 ^ s.params.sizeW := by rw [beBound_eq]; omega
  have hmeasure := exec_beEncBuf (s := s) (src := src) (dst := dst) (cap := 0) (Nat.lt_of_succ_lt hn) (by omega)
    (fun _ _ _ hk => absurd hk (Nat.not_lt_zero _))
  rw [Memory.outBytes_cap_zero] at hmeasure
  refine ⟨_, hmeasure, fun hd hout => ?_⟩
  obtain ⟨t, ht, hparams, hret, hwf, hspan⟩ := exec_beEncBuf_fill hm (Nat.lt_of_succ_lt hn) hd
  have hlen := length_enc_source_le s src n
  have hframe := (Memory.span_write_end (b := delim) hwf).trans (congrArg (· ++ [delim]) hspan)
  obtain ⟨u, hu, huret, huspan⟩ := exec_bdDecBuf_frame
    (s := { t with mem := t.mem.write (dst + (enc (s.source src n)).length) 0x00#8 })
    (Memory.wf_write hwf) hframe (by simp only [hparams]; omega) (by simpa only [hparams] using hcap) hout (by simpa using hfit)
  rw [State.length_source] at huret huspan
  exact ⟨t, u, ht, hret, hspan, hu, huret, huspan⟩

/-! ### What BE emits, and that it determines the payload (R190, R198) -/

theorem chunks_flatMap_beEmissions (bs : List Block) : chunks (bs.flatMap beEmissions) = wireBytes bs := by
  simp only [chunks_flatMap, chunks_beEmissions, wireBytes]

/-- The chunks of `BE.ENC_SINK` are the encoding (R190). -/
theorem chunks_of_exec_beEncSink (h : exec (.beEncSink src n) s = .next t) (hes : t.sink = s.sink ++ es) :
    chunks es = enc (s.source src n) := by
  obtain ⟨-, rfl⟩ := sinkCommand_next.1 h
  obtain rfl := List.append_cancel_left hes
  rw [← beOutput_eq_chunks, beOutput_beScan]

/-- The parse of an encoding, without a delimiter (R191). -/
theorem bdOutput_bdParse_enc (payload : List Byte) : bdOutput (bdParse (enc payload)).1 = payload := by
  have hparse := bdOutput_parse (encBlocks payload) .exhausted (sized_of_mem_encBlocks payload) rfl
  rwa [FrameEnd.bytes, List.append_nil, payloadOf_encBlocks] at hparse

theorem enc_injective : Function.Injective enc :=
  Function.LeftInverse.injective (g := fun f => bdOutput (bdParse f).1) bdOutput_bdParse_enc

/-- Settles O51: the parse of an encoding puts out the payload, so it is an inverse of `enc`. -/
theorem encodingIsInjective : Obligations.EncodingIsInjective := by
  intro s s' t t' src src' n n' es es' h hes h' hes' heq
  rw [chunks_of_exec_beEncSink h hes, chunks_of_exec_beEncSink h' hes'] at heq
  exact enc_injective heq

/-! ### Decoding never lengthens (R199) -/

/-- The decoded bytes of any input, those before a truncated block included. -/
theorem length_bdOutput_le (f : List Byte) : (bdOutput (bdParse f).1).length ≤ f.length - 1 := by
  obtain ⟨bs, e, hbs, he, rfl⟩ := blocks_then_end f
  have hle := length_payloadOf_le bs
  rw [bdOutput_parse bs e hbs he, List.length_append]
  omega

/-- Settles O29: the result and the decoded bytes of a parse, for an input of `n` bytes. -/
theorem decodingNeverLengthens : Obligations.DecodingNeverLengthens := by
  intro s t src n dst cap
  have hret := bdRet_le (s.source src n)
  have hout := length_bdOutput_le (s.source src n)
  rw [State.length_source] at hret hout
  refine ⟨fun h => ?_, fun h => ?_⟩
  · obtain ⟨-, rfl⟩ := sinkCommand_next.1 h
    refine ⟨⟨_, rfl, hret⟩, fun es hes => ?_⟩
    obtain rfl := List.append_cancel_left hes
    rwa [← bdOutput_eq_chunks]
  · obtain ⟨-, rfl⟩ := bufCommand_next.1 h
    exact ⟨_, rfl, hret⟩

/-! ### The blocks SE emits (R195) -/

/-- SE emits a block as one emission (R151). -/
def seEmission (b : Block) : Emission := .encode .se (blockBytes b)

theorem chunks_map_seEmission (bs : List Block) : chunks (bs.map seEmission) = wireBytes bs :=
  List.flatMap_map ..

/-- SE's pending data as a block, the code counted from `SE.cnt` (R29). -/
theorem blockBytes_seData (h : s.seCnt ≤ 254) : blockBytes (blockOf s.seData) = s.seCode :: s.seData := by
  rw [blockBytes, blockOf, State.length_seData h]
  rfl

theorem seData_of_cnt_zero (h : s.seCnt = 0) : s.seData = [] := by
  rw [State.seData, h, List.take_zero]

/-- From `s` to `t` SE took the bytes `vs` and emitted the blocks `bs`: whatever follows, these blocks and those of what is
pending then are the blocks of what was pending before and the bytes taken. -/
structure SeEncodes (s : State) (vs : List Byte) (bs : List Block) (t : State) : Prop where
  cnt_le : t.seCnt ≤ 254
  sink_eq : t.sink = s.sink ++ bs.map seEmission
  blocks_eq : ∀ rest, bs ++ encBlocksFrom t.seData rest = encBlocksFrom s.seData (vs ++ rest)

/-- A full pending block is flushed before any byte (R111, R153). -/
theorem encBlocksFrom_full {pend : List Byte} (h : pend.length = maxData) (v : Byte) (vs : List Byte) :
    encBlocksFrom pend (v :: vs) = blockOf pend :: encBlocksFrom [] (v :: vs) := by
  simp only [encBlocksFrom, if_pos h]
  split <;> rfl

/-- A byte taken where the pending block has room for it (R153). -/
theorem seEncodes_seTake (v : Byte) (h : s.seCnt < 254) : ∃ bs, SeEncodes s [v] bs (seTake v s) := by
  have hroom : s.seData.length ≠ maxData := by rw [State.length_seData h.le]; exact h.ne
  by_cases hv : v = delim
  · rw [seTake_zero hv]
    refine ⟨[blockOf s.seData], Nat.zero_le _, ?_, fun rest => ?_⟩
    · rw [sink_seFlush, List.map_singleton, seEmission, blockBytes_seData h.le]
    · rw [seData_of_cnt_zero (seCnt_seFlush s), List.singleton_append, List.singleton_append, encBlocksFrom, if_neg hroom,
        if_pos hv]
  · have hdata : (seTake v s).seData = s.seData ++ [v] := by
      rw [seTake_data hv]
      exact take_setIfInBounds s.seBuf v h
    refine ⟨[], ?_, ?_, fun rest => ?_⟩
    · rw [seTake_data hv]
      exact h
    · rw [seTake_data hv, List.map_nil, List.append_nil]
    · rw [hdata, List.singleton_append, List.nil_append, encBlocksFrom, if_neg hroom, if_neg hv]

theorem exec_seSink (v : Byte) (s : State) : exec (.seSink v) s = .next (seTake v (seFlushFull s)) := rfl

/-- The two tests of `SE.SINK` (R153): a full pending block goes first. -/
theorem seEncodes_seSink (v : Byte) (h : s.seCnt ≤ 254) : ∃ bs, SeEncodes s [v] bs (seTake v (seFlushFull s)) := by
  by_cases hfull : s.seCnt = 254
  · have hflush : seFlushFull s = seFlush s := if_pos hfull
    have hlen : s.seData.length = maxData := by rw [State.length_seData h]; exact hfull
    obtain ⟨bs, hcnt, hsink, hblocks⟩ := seEncodes_seTake (s := seFlush s) v (by simp)
    rw [hflush]
    refine ⟨blockOf s.seData :: bs, hcnt, ?_, fun rest => ?_⟩
    · rw [hsink, sink_seFlush, List.map_cons, seEmission, blockBytes_seData h, List.append_assoc, List.singleton_append]
    · rw [List.cons_append, hblocks, seData_of_cnt_zero (seCnt_seFlush s), List.singleton_append, encBlocksFrom_full hlen]
  · rw [seFlushFull_of_room hfull]
    exact seEncodes_seTake v (lt_of_le_of_ne h hfull)

/-- A payload fed to SE byte by byte. -/
theorem execAll_seSink_encodes (payload : List Byte) (h : s.seCnt ≤ 254) :
    ∃ t bs, execAll (payload.map Instr.seSink) s = .next t ∧ SeEncodes s payload bs t := by
  induction payload generalizing s with
  | nil => exact ⟨s, [], rfl, h, (List.append_nil _).symm, fun _ => rfl⟩
  | cons v vs ih =>
    obtain ⟨bs, hcnt, hsink, hblocks⟩ := seEncodes_seSink v h
    obtain ⟨u, cs, hu, hucnt, husink, hublocks⟩ := ih hcnt
    refine ⟨u, bs ++ cs, (execAll_cons (exec_seSink v s)).trans hu, hucnt, ?_, fun rest => ?_⟩
    · rw [husink, hsink, List.map_append, List.append_assoc]
    · rw [List.append_assoc, hublocks, hblocks, List.singleton_append, List.cons_append]

/-- From an empty pending block, the blocks emitted and the one pending are the blocks of the payload. -/
theorem SeEncodes.blocks_of_cnt_zero (h : SeEncodes s payload bs t) (hs : s.seCnt = 0) :
    bs ++ [blockOf t.seData] = encBlocks payload := by
  have hblocks := h.blocks_eq []
  rwa [seData_of_cnt_zero hs, List.append_nil] at hblocks

/-- After `k` bytes BE's scan has flushed these blocks, and the rest of the payload decides the others (R111). -/
theorem beScan_take_blocks (payload : List Byte) (k : Nat) (hk : k ≤ payload.length) (rest : List Byte) :
    ((payload.take k).foldl (beByte payload) beInit).flushed ++
        encBlocksFrom (pendingData payload ((payload.take k).foldl (beByte payload) beInit)) rest =
      encBlocks (payload.take k ++ rest) := by
  induction k generalizing rest with
  | zero => simp [encBlocks, pendingData, slice, beInit]
  | succ k ih =>
    obtain ⟨hok, hi, -⟩ := beScan_take_ok payload k (by omega)
    have hprev := ih (by omega)
    have hlast : payload.take (k + 1) = payload.take k ++ [payload[k]] := by simp
    rw [hlast, List.foldl_append, List.foldl_cons, List.foldl_nil, List.append_assoc, List.singleton_append, ← hprev]
    generalize (payload.take k).foldl (beByte payload) beInit = w at hok hi
    subst hi
    exact beByte_blocks hok hk rest

/-- After the same `k` bytes, SE and BE have the same data pending. -/
theorem seData_eq_pendingData (hk : k ≤ payload.length) (hs : s.seCnt = 0) (h : SeEncodes s (payload.take k) bs t) :
    t.seData = pendingData payload ((payload.take k).foldl (beByte payload) beInit) := by
  have hbe := beScan_take_blocks payload k hk []
  rw [List.append_nil, ← h.blocks_of_cnt_zero hs] at hbe
  have hlast := (List.append_inj' hbe rfl).2
  exact congrArg Block.data (List.singleton_injective hlast.symm)

/-- `SE.STOP` after a payload (R154): all blocks of the payload are emitted, the last one with the delimiter. -/
theorem execAll_se_payload (payload : List Byte) (hs : s.seCnt = 0) :
    ∃ (t : State) (bs : List Block) (last : Block), execAll (payload.map Instr.seSink ++ [.seStop]) s = .next t ∧
      t.seCnt = 0 ∧ t.sink = s.sink ++ (bs.map seEmission ++ [.encode .se (blockBytes last ++ [delim])]) ∧
      bs ++ [last] = encBlocks payload := by
  obtain ⟨t, bs, ht, henc⟩ := execAll_seSink_encodes payload (s := s) (by omega)
  refine ⟨_, bs, blockOf t.seData, execAll_append ht, rfl, ?_, henc.blocks_of_cnt_zero hs⟩
  rw [blockBytes_seData henc.cnt_le, ← List.append_assoc, ← henc.sink_eq]
  rfl

/-- Settles O35: both units emit the blocks of the payload, and have the same data pending after each byte. -/
theorem streamingEncoderEqualsBulkEncoder : Obligations.StreamingEncoderEqualsBulkEncoder := by
  intro s v src n hn hs payload
  refine ⟨?_, fun k hk => ?_⟩
  · obtain ⟨u, bs, last, hu, hcnt, hsink, hblocks⟩ := execAll_se_payload payload hs
    have hbytes : chunks (bs.map seEmission ++ [.encode .se (blockBytes last ++ [delim])]) = enc payload ++ [delim] := by
      rw [chunks_append, chunks_map_seEmission, enc, ← hblocks, wireBytes_append]
      simp [chunks, Emission.bytes, wireBytes]
    refine ⟨_, _, u, _, exec_beEncSink hn, rfl, hu, hsink, ?_, hcnt, bs, last, ?_, rfl⟩
    · rw [hbytes, chunks_flatMap_beEmissions]
      rfl
    · rw [hblocks]
      rfl
  · have hlen : k ≤ payload.length := hk.trans (Memory.length_span ..).ge
    obtain ⟨u, bs, hu, henc⟩ := execAll_seSink_encodes (payload.take k) (s := s) (by omega)
    obtain ⟨hok, hi, -⟩ := beScan_take_ok payload k hlen
    have hdata := seData_eq_pendingData hlen hs henc
    have hcnt : u.seCnt = ((payload.take k).foldl (beByte payload) beInit).code - 1 := by
      rw [← length_pendingData hok, ← hdata, State.length_seData henc.cnt_le]
    have hspan := hok.span.trans hi
    refine ⟨u, hu, hcnt, hdata.trans ?_⟩
    rw [pendingData]
    congr 1
    omega

/-! ### No zero inside a frame (R192) -/

theorem ne_delim_of_mem_wireBytes (hbs : ∀ b ∈ bs, b.wf = true) : ∀ v ∈ wireBytes bs, v ≠ delim := by
  intro v hv
  obtain ⟨b, hb, hv⟩ := List.mem_flatMap.1 hv
  obtain ⟨hsized, hdata⟩ := Block.wf_iff.1 (hbs b hb)
  obtain rfl | hv := List.mem_cons.1 hv
  · exact code_ne_delim_of_sized hsized
  · exact hdata v hv

theorem ne_delim_of_mem_enc (payload : List Byte) : ∀ v ∈ enc payload, v ≠ delim :=
  ne_delim_of_mem_wireBytes (wf_of_mem_encBlocks payload)

/-- The blocks SE emits are blocks of what was pending and the bytes taken, so they are well formed when that holds no zero. -/
theorem SeEncodes.wf {vs : List Byte} (h : SeEncodes s vs bs t) (hs : s.seOk = true) : ∀ b ∈ bs, b.wf = true := by
  obtain ⟨hcnt, hdata⟩ := State.seOk_iff.1 hs
  intro b hb
  refine wf_of_mem_encBlocksFrom (vs ++ []) (by rwa [State.length_seData hcnt]) hdata b ?_
  rw [← h.blocks_eq]
  exact List.mem_append_left _ hb

/-- Settles O24: every emission of the encoders carries blocks of the grammar, and that of `SE.STOP` one more byte. -/
theorem encoderOutputHasNoZero : Obligations.EncoderOutputHasNoZero := by
  refine ⟨fun s t src n es h hes => ?_, ne_delim_of_mem_enc, fun s t b es hs h hes => ?_, fun s hs => ?_⟩
  · rw [chunks_of_exec_beEncSink h hes]
    exact ne_delim_of_mem_enc _
  · obtain ⟨bs, henc⟩ := seEncodes_seSink b (State.seOk_iff.1 hs).1
    obtain rfl := Host.Outcome.next.inj ((exec_seSink b s).symm.trans h)
    obtain rfl := List.append_cancel_left (hes.symm.trans henc.sink_eq)
    rw [chunks_map_seEmission]
    exact ne_delim_of_mem_wireBytes (henc.wf hs)
  · exact ⟨_, s.seCode :: s.seData, rfl, rfl, List.forall_mem_cons.2 ⟨State.seCode_ne_zero hs, (State.seOk_iff.1 hs).2⟩⟩

/-! ### A frame cut inside a block (R196) -/

theorem sdTakeCode_emits_nothing_missing (c : Byte) (s : State) :
    EmitsAtMost 1 (fun e => e.missing = 0) s (sdTakeCode c s) := by
  unfold sdTakeCode sdRelease
  split
  · exact .one (e := .decode .sd _ 0 false) (congrArg (· ++ _) (sink_sdImpliedZero s)) rfl
  · exact .of_sink_eq rfl

/-- SD on blocks, a code and fewer data bytes than it declares, and then `SD.STOP`: only the last emission lacks bytes. -/
theorem execAll_sdSink_truncated {c : Byte} {present : List Byte} (hcode : s.sdCode = 0x00#8) (hsize : s.sdSize = 0)
    (hbs : ∀ b ∈ bs, b.wf = true) (hpresent : ∀ v ∈ present, v ≠ delim) (hcut : present.length + 1 < c.toNat) :
    ∃ t es, execAll ((wireBytes bs ++ c :: present).map Instr.sdSink ++ [.sdStop]) s = .next t ∧
      t.sink = s.sink ++ es ++ [.decode .sd present (c.toNat - 1 - present.length) false] ∧ ∀ e ∈ es, e.missing = 0 := by
  obtain ⟨t, runs, ht, hp, hsink, -⟩ := execAll_sdSink_blocks hcode hsize hbs
  have hc : c ≠ delim := by rintro rfl; simp [delim] at hcut
  obtain ⟨u, hu, ⟨hucode, husize, hudata⟩, husink⟩ := execAll_sdSink_code_data hp hc hpresent hcut.le
  obtain ⟨es, hes, -, hmissing⟩ := sdTakeCode_emits_nothing_missing c t
  have hleft : sdLeft u.sdCode u.sdSize = c.toNat - 1 - present.length := by
    rw [hucode, husize, sdLeft_of_pos (by omega)]
    omega
  refine ⟨sdFinalize u, runs.map (fun r => .decode .sd r 0 false) ++ es, ?_, ?_, fun e he => ?_⟩
  · rw [List.map_append, List.append_assoc, execAll_append ht]
    exact execAll_append hu
  · rw [sink_sdFinalize, hudata, hleft, husink, hes, hsink, List.append_assoc s.sink]
  · exact (List.mem_append.1 he).elim (missing_runs _ _ e) (hmissing e)

/-- Settles O49: the input is blocks with the truncated ending of R133, and SD ends inside the block. -/
theorem truncationIsDetectedByAllDecoders : Obligations.TruncationIsDetectedByAllDecoders := by
  intro bs c present hbs hpresent hcut
  have hvalid : (FrameEnd.truncated c present).valid = true := decide_eq_true (Nat.add_lt_of_lt_sub hcut)
  have hsized : ∀ b ∈ bs, b.sized = true := fun b hb => (Block.wf_iff.1 (hbs b hb)).1
  refine ⟨_, rfl, Nat.sub_pos_of_lt hcut, fun s src n hn hspan => ⟨?_, fun dst cap hcap hd => ?_⟩, fun s hcode hsize => ?_⟩
  · exact ⟨_, _, exec_bdDecSink hsized hvalid hspan hn, rfl, (List.append_assoc ..).symm⟩
  · exact ⟨_, exec_bdDecBuf hsized hvalid hspan hn hcap hd, rfl⟩
  · exact execAll_sdSink_truncated hcode hsize hbs hpresent (Nat.add_lt_of_lt_sub hcut)

end Sys2Proof.Machine
end

section
/-! PROOFS. The one error condition (`spec/60_exceptions.md`): the encoders never report it (R217), BD reports a truncated frame
once in its sink mode and by a result of 0 in its buffer mode (R212, R213), and SD by what it received and what is missing (R214,
R215). -/

namespace Sys2Proof.Machine

variable {i : Instr} {s t : State} {c : Byte} {present : List Byte}

/-! ### The encoders (R217) -/

/-- The encode-side record of R96, made by the unit `u`: it has no field for a missing count. -/
def IsEncoded (u : CobsUnit) (e : Emission) : Prop := ∃ bytes, e = .encode u bytes

theorem isEncoded_of_mem_beEmissions (bs : List Block) : ∀ e ∈ bs.flatMap beEmissions, IsEncoded .be e := by
  intro e he
  obtain ⟨b, -, hb⟩ := List.mem_flatMap.1 he
  simp only [beEmissions, List.mem_cons, List.not_mem_nil, or_false] at hb
  obtain rfl | rfl := hb <;> exact ⟨_, rfl⟩

theorem seFlush_emits_encoded (s : State) : EmitsAtMost 1 (IsEncoded .se) s (seFlush s) := .one (sink_seFlush s) ⟨_, rfl⟩

theorem seFlushFull_emits_encoded (s : State) : EmitsAtMost 1 (IsEncoded .se) s (seFlushFull s) := by
  unfold seFlushFull
  split
  · exact seFlush_emits_encoded s
  · exact .of_sink_eq rfl

theorem seTake_emits_encoded (b : Byte) (s : State) : EmitsAtMost 1 (IsEncoded .se) s (seTake b s) := by
  unfold seTake
  split
  · exact seFlush_emits_encoded s
  · exact .of_sink_eq rfl

/-- A command of BE emits blocks in its sink mode and nothing in its buffer mode; one of SE emits its pending blocks. -/
theorem encoder_emits_encoded (hu : i.unit = .be ∨ i.unit = .se) (h : exec i s = .next t) :
    ∃ k, EmitsAtMost k (IsEncoded i.unit) s t := by
  cases i with
  | beEncSink src n =>
    obtain ⟨-, rfl⟩ := sinkCommand_next.1 h
    exact ⟨_, _, rfl, le_rfl, isEncoded_of_mem_beEmissions _⟩
  | beEncBuf src n dst cap =>
    obtain ⟨-, rfl⟩ := bufCommand_next.1 h
    exact ⟨0, .of_sink_eq rfl⟩
  | seReset => cases h; exact ⟨0, .of_sink_eq rfl⟩
  | seSink b => cases h; exact ⟨2, (seFlushFull_emits_encoded s).trans (seTake_emits_encoded b _)⟩
  | seStop => cases h; exact ⟨1, .one rfl ⟨_, rfl⟩⟩
  | _ => simp [Instr.unit] at hu

/-- Every payload, the empty one too, has an encoding of at least one byte (R115, R118). -/
theorem length_enc_pos (payload : List Byte) : 0 < (enc payload).length := by
  rw [length_enc]
  omega

/-- Settles O18: by the records the encoders emit, and the next states of BE, whose result is the length of an encoding. -/
theorem encodersReportNoError : Obligations.EncodersReportNoError := by
  refine ⟨fun i s t hu h => ?_, fun s b i hi => ?_, fun s src n hn => ⟨?_, fun dst cap hcap hd => ?_⟩⟩
  · obtain ⟨_, es, hes, -, henc⟩ := encoder_emits_encoded hu h
    exact ⟨es, hes, henc⟩
  · exact streamingCommandsAlwaysComplete s b i (List.mem_append_left [Instr.sdReset, .sdSink b, .sdStop] hi)
  · exact ⟨_, exec_beEncSink hn, _, rfl, length_enc_pos _⟩
  · exact ⟨_, exec_beEncBuf hn hcap hd, _, rfl, length_enc_pos _⟩

/-! ### The bulk decoder (R211 to R213) -/

theorem valid_truncated (h : present.length < c.toNat - 1) : (FrameEnd.truncated c present).valid = true :=
  decide_eq_true (Nat.add_lt_of_lt_sub h)

/-- Settles O28: the input is blocks with the truncated ending of R133, which alone is reported; the empty input is no blocks with
nothing after them. -/
theorem truncatedFrameIsReportedOnce : Obligations.TruncatedFrameIsReportedOnce := by
  refine ⟨fun s src n bs c present hbs hcut hn hspan => ⟨?_, fun dst cap hcap hd => ?_⟩, fun s src dst cap hcap => ?_⟩
  · refine ⟨_, _, exec_bdDecSink hbs (valid_truncated hcut) hspan hn, rfl, (List.append_assoc ..).symm, fun e he => ?_⟩
    obtain ⟨run, -, rfl⟩ := List.mem_map.1 he
    exact ⟨run, rfl⟩
  · exact ⟨_, exec_bdDecBuf hbs (valid_truncated hcut) hspan hn hcap hd, rfl, rfl⟩
  · have hdisjoint : disjoint src 0 dst cap := fun _ _ hj => absurd hj (Nat.not_lt_zero _)
    exact ⟨_, exec_bdDecBuf (bs := []) (e := .exhausted) (by simp) rfl rfl (Nat.two_pow_pos _) hcap hdisjoint, rfl⟩

/-! ### The streaming decoder (R214, R215) -/

/-- Both ways to end a frame are the finalize action of R173. -/
theorem exec_sd_end (hi : i = .sdStop ∨ i = .sdSink 0x00#8) : exec i s = .next (sdFinalize s) := by
  obtain rfl | rfl := hi
  · exact exec_sdStop s
  · exact exec_sdSink_delim s

/-- Inside a block at least one data byte is missing (R35, R173). -/
theorem sdLeft_of_receivingBlock (h : s.receivingBlock = true) :
    sdLeft s.sdCode s.sdSize = s.sdCode.toNat - s.sdSize - 1 ∧ 1 ≤ sdLeft s.sdCode s.sdSize := by
  obtain ⟨hcode, hsize⟩ := State.receivingBlock_iff.1 h
  have hleft : sdLeft s.sdCode s.sdSize = s.sdCode.toNat - s.sdSize - 1 := if_pos hcode
  exact ⟨hleft, by omega⟩

/-- Settles O41: the finalize action's missing count inside a block, and at a code position in the other two logical states. -/
theorem endingInsideABlockReportsTruncation : Obligations.EndingInsideABlockReportsTruncation := by
  refine fun s hok => ⟨fun hr i hi => ?_, fun hr => ?_⟩
  · obtain ⟨hleft, hpos⟩ := sdLeft_of_receivingBlock hr
    exact ⟨_, _, _, exec_sd_end hi, sink_sdFinalize s, rfl, State.length_sdData hok, hleft, hpos⟩
  · have hleft := sdLeft_of_code ((position_code_iff_not_receivingBlock hok).2 hr)
    exact ⟨_, s.sdData, exec_sdStop s, hleft ▸ sink_sdFinalize s⟩

end Sys2Proof.Machine
end

section
/-! PROOFS. Reset and hazards (`spec/70_reset_and_hazards.md`): with no command issued the machine waits (R242). -/

namespace Sys2Proof.Machine

/-- Settles O7: the empty stream selects the waiting branch of the step. -/
theorem stepWaitsWithNothingPending : Obligations.StepWaitsWithNothingPending := by
  intro s hpending
  rw [step, hpending]

end Sys2Proof.Machine
end
